-- ==== Sys2Proof/Word.lean ====
section
/-!
DEFINITION. The word types of the SFC. Every bus access is one byte at a 16-bit address (20_memory.md R50),
FLT is a 32-bit word (10_state.md R34), and every value is unsigned (00_scope.md R9).
-/

namespace Sys2Proof

/-- One byte: a bus access's data, and an element of every buffer (R10, R50). -/
abbrev Byte := BitVec 8

/-- An address of the host register space, 0x0000..0xFFFF (R50). -/
abbrev Addr := BitVec 16

/-- A 32-bit word: FLT (R34), and a transaction word of a host program (R75). -/
abbrev Word32 := BitVec 32

/-- A 4-bit value: one hex digit (R12). -/
abbrev Nibble := BitVec 4

end Sys2Proof
end

