-- ==== Sys2Proof/Config.lean ====
section
/-!
DEFINITION. The configuration parameters of 00_scope.md R7. A parameter is fixed for the life of an instance and a
model takes it as an argument (R7, R21): every meaning reads it from the `cfg` field of the state it is given, and
no step changes that field (log 1).
-/

namespace Sys2Proof

/-- `HEX_CASE`: the letter case of the hex digits A-F that F2H emits (R7, R12). -/
inductive HexCase
  | upper
  | lower
deriving DecidableEq, Repr

/-- The parameters of R7. -/
structure Config where
  /-- `BODY_MAX`: capacity in bytes of BODY. -/
  bodyMax : Nat
  /-- `RX_MAX`: capacity in bytes of RX. -/
  rxMax : Nat
  /-- `HEX_CASE`, which the spec leaves OPEN. -/
  hexCase : HexCase
  /-- `CMD_LATENCY`, OPEN and unobservable: no meaning reads it (R63, R196; log 6). -/
  cmdLatency : Nat
deriving DecidableEq, Repr

/-- The legal values of R7: `BODY_MAX` in 1..255 and `RX_MAX` in 8..1023. -/
abbrev Config.Legal (c : Config) : Prop :=
  (1 ≤ c.bodyMax ∧ c.bodyMax ≤ 255) ∧ (8 ≤ c.rxMax ∧ c.rxMax ≤ 1023)

end Sys2Proof
end

