-- ==== Sys2Proof/Syntax.lean ====
section
/-!
DEFINITION. What the host can say to the SFC: the commands of the opcode table (30_encoding.md R71, R73), the bus
accesses (20_memory.md R50), the host's events, the assembler forms of R76, and the named locations of the register
map (R51).
-/

namespace Sys2Proof

/-- The SFC's commands, one constructor per row of opcode_table.json. A command has no operand fields (R70): only
the reserved row carries its OP. -/
inductive Instr
  /-- R150: no operation. -/
  | nop
  /-- R91: packed-ASCII encode the tag. -/
  | pack
  /-- R101: XOR checksum of the body. -/
  | csum
  /-- R112: build the outbound frame. -/
  | fenc
  /-- R114: strip sync bytes and parse the response. -/
  | fdec
  /-- R133: binary32 to 8 hex characters. -/
  | f2h
  /-- R134: hex characters to binary32. -/
  | h2f
  /-- R92: empty the tag buffer. -/
  | clrTag
  /-- R118: empty the body buffer and clear BODY_OVF. -/
  | clrBody
  /-- R119: empty the receive buffer and clear RX_OVF. -/
  | clrRx
  /-- R135: empty the hex input buffer and clear HEX_OVF. -/
  | clrHex
  /-- R151: soft reset. -/
  | srst
  /-- R152: a reserved OP (R73). -/
  | badcmd (op : Byte)
deriving DecidableEq, Repr

/-- One bus access of the host: a one-byte read or a one-byte write (R50, R52, R55). -/
inductive Access
  | read (a : Addr)
  | write (a : Addr) (v : Byte)
deriving DecidableEq, Repr

/-- What the outside world does to the SFC: a bus access of the one host (R20), or a power-on reset (R180). -/
inductive HostEvent
  | access (x : Access)
  | powerOn
deriving DecidableEq, Repr

/-- The forms of the host assembler (R76). A character is its ASCII byte. -/
inductive HostForm
  /-- `WR addr, byte` -/
  | wr (a : Addr) (v : Byte)
  /-- `RD addr -> byte`: the byte is a check for the reader, no part of the access. -/
  | rd (a : Addr) (expected : Byte)
  /-- `CMD mnemonic` -/
  | cmd (i : Instr)
  /-- `TAG "cccccccc"` -/
  | tag (cs : List Byte)
  /-- `BODY b0, b1, ...` -/
  | body (bs : List Byte)
  /-- `RX b0, b1, ...` -/
  | rx (bs : List Byte)
  /-- `HEX "cc..."` -/
  | hex (cs : List Byte)
  /-- `FLT 0xWWWWWWWW` -/
  | flt (w : Word32)
deriving DecidableEq, Repr

/-- The locations of the register map (R51), each under its name there; an index is the address minus the base. -/
inductive Loc
  | cmd | res | flags
  | tagIn | tagCnt
  | bodyIn | bodyLen
  | rxIn | rxLenL | rxLenH
  | hexIn | hexLen
  | csum
  | txLenL | txLenH
  | decDelim | decAddr (i : Fin 5) | decCmd | decBcnt
  | dataLen
  | slenL | slenH
  | flt (i : Fin 4)
  | paddr (i : Fin 6)
  | tag (i : Fin 8)
  | hexb (i : Fin 8)
  | hexo (i : Fin 8)
  | bodyWin (i : Fin 256)
  | txWin (i : Fin 512)
  | rxWin (i : Fin 1024)
  | dataWin (i : Fin 256)
  /-- Every address R51 does not list (R54). -/
  | unmapped
deriving DecidableEq, Repr

end Sys2Proof
end

