-- ==== Sys2Proof/WellFormed.lean ====
section
/-!
DEFINITION. The checks on terms of Syntax.lean: a reserved command carries a reserved OP (30_encoding.md R73), a
`CMD` form names a mnemonic of the command set (R76, R77), a transaction word has the form of R75. The check on the
parameters is `Config.Legal` (00_scope.md R7).
-/

namespace Sys2Proof

/-- The reserved OPs: 0x07, 0x0C, 0x0D, 0x0E and 0x10..0xFF (R73). -/
abbrev ReservedOp (op : Byte) : Prop :=
  op = 0x07#8 ∨ op = 0x0C#8 ∨ op = 0x0D#8 ∨ op = 0x0E#8 ∨ 0x10 ≤ op.toNat

/-- A command is well-formed when a reserved one carries a reserved OP; the others have no field (R70, R73). -/
def Instr.wf (i : Instr) : Bool :=
  match i with
  | .badcmd op => decide (ReservedOp op)
  | .nop | .pack | .csum | .fenc | .fdec | .f2h | .h2f
  | .clrTag | .clrBody | .clrRx | .clrHex | .srst => true

abbrev Instr.WellFormed (i : Instr) : Prop := i.wf = true

/-- `CMD mnemonic` names one of the twelve mnemonics, never a reserved code (R76, R77). -/
def HostForm.wf (f : HostForm) : Bool :=
  match f with
  | .cmd (.badcmd _) => false
  | .cmd _ => true
  | .wr .. | .rd .. | .tag _ | .body _ | .rx _ | .hex _ | .flt _ => true

abbrev HostForm.WellFormed (f : HostForm) : Prop := f.wf = true

/-- The form of a transaction word: bits 31:25 are 0, and a read (bit 24 clear) has DATA 0x00 (R75). -/
abbrev TransactionWordWellFormed (w : Word32) : Prop :=
  w.extractLsb' 25 7 = 0#7 ∧ (w.getLsbD 24 = false → w.extractLsb' 0 8 = 0#8)

end Sys2Proof
end

