-- ==== Sys2Proof/Decode.lean ====
section
/-!
DEFINITION. From bits to terms and back: the opcode map (30_encoding.md R71, R73), the register map's addresses
(20_memory.md R51, R54), the transaction words of host programs (R75) and the expansion of the assembler forms (R76).
Every decoder is total; the encoders are written from the same tables.
-/

namespace Sys2Proof

/-! ## The opcode map -/

/-- The command an OP selects: all eight bits count (R71), and every OP not in the map is reserved (R73). -/
def decodeOp (op : Byte) : Instr :=
  match op.toNat with
  | 0x00 => .nop
  | 0x01 => .pack
  | 0x02 => .csum
  | 0x03 => .fenc
  | 0x04 => .fdec
  | 0x05 => .f2h
  | 0x06 => .h2f
  | 0x08 => .clrTag
  | 0x09 => .clrBody
  | 0x0A => .clrRx
  | 0x0B => .clrHex
  | 0x0F => .srst
  | _ => .badcmd op

/-- Why bytes are not a command. -/
inductive DecodeReject
  /-- There is no byte: a command is exactly one (R74). -/
  | noByte
deriving DecidableEq, Repr

/-- Decode the first command of a byte stream, and give the rest: every command is exactly one byte (R74). -/
def decode (bytes : List Byte) : Except DecodeReject (Instr × List Byte) :=
  match bytes with
  | [] => .error .noByte
  | op :: rest => .ok (decodeOp op, rest)

/-- The OP of a command (R71). -/
def opcodeOf (i : Instr) : Byte :=
  match i with
  | .nop => 0x00#8
  | .pack => 0x01#8
  | .csum => 0x02#8
  | .fenc => 0x03#8
  | .fdec => 0x04#8
  | .f2h => 0x05#8
  | .h2f => 0x06#8
  | .clrTag => 0x08#8
  | .clrBody => 0x09#8
  | .clrRx => 0x0A#8
  | .clrHex => 0x0B#8
  | .srst => 0x0F#8
  | .badcmd op => op

/-- The bytes of a command (R70, R74). -/
def encode (i : Instr) : List Byte := [opcodeOf i]

/-- The mnemonics of the command set (R77); a reserved code has none. -/
def mnemonicOf (i : Instr) : Option String :=
  match i with
  | .nop => some "NOP"
  | .pack => some "PACK"
  | .csum => some "CSUM"
  | .fenc => some "FENC"
  | .fdec => some "FDEC"
  | .f2h => some "F2H"
  | .h2f => some "H2F"
  | .clrTag => some "CLR_TAG"
  | .clrBody => some "CLR_BODY"
  | .clrRx => some "CLR_RX"
  | .clrHex => some "CLR_HEX"
  | .srst => some "SRST"
  | .badcmd _ => none

/-- The bits of an instruction as opcode_table.json numbers them: `w` cut to `nbits` bits. -/
def tableBits (nbits w : Nat) : Nat := w % 2 ^ nbits

/-- The instruction the decoder reads from the bits of an opcode-table row: the command is the one byte, and
anything above it would be no command (R74; log 13). -/
def decodeTableWord (nbits w : Nat) : Option Instr :=
  if tableBits nbits w < 256 then
    match decode [BitVec.ofNat 8 (tableBits nbits w)] with
    | .ok (i, _) => some i
    | .error _ => none
  else none

/-! ## The register map -/

/-- `CMD`, the address whose write runs a command (R51, R70). -/
abbrev cmdAddr : Addr := 0x0000#16
/-- `RES` (R51). -/
abbrev resAddr : Addr := 0x0001#16
/-- The TAG port (R51, R90). -/
abbrev tagInAddr : Addr := 0x0004#16
/-- The BODY port (R51, R110). -/
abbrev bodyInAddr : Addr := 0x0006#16
/-- The RX port (R51, R111). -/
abbrev rxInAddr : Addr := 0x0008#16
/-- The HEX port (R51, R132). -/
abbrev hexInAddr : Addr := 0x000B#16

/-- The windows and indexed registers of R51, by address. -/
def locateWindow (n : Nat) : Loc :=
  if h : 0x0011 ≤ n ∧ n ≤ 0x0015 then .decAddr ⟨n - 0x0011, by omega⟩
  else if h : 0x001C ≤ n ∧ n ≤ 0x001F then .flt ⟨n - 0x001C, by omega⟩
  else if h : 0x0020 ≤ n ∧ n ≤ 0x0025 then .paddr ⟨n - 0x0020, by omega⟩
  else if h : 0x0028 ≤ n ∧ n ≤ 0x002F then .tag ⟨n - 0x0028, by omega⟩
  else if h : 0x0030 ≤ n ∧ n ≤ 0x0037 then .hexb ⟨n - 0x0030, by omega⟩
  else if h : 0x0038 ≤ n ∧ n ≤ 0x003F then .hexo ⟨n - 0x0038, by omega⟩
  else if h : 0x0100 ≤ n ∧ n ≤ 0x01FF then .bodyWin ⟨n - 0x0100, by omega⟩
  else if h : 0x0200 ≤ n ∧ n ≤ 0x03FF then .txWin ⟨n - 0x0200, by omega⟩
  else if h : 0x0400 ≤ n ∧ n ≤ 0x07FF then .rxWin ⟨n - 0x0400, by omega⟩
  else if h : 0x0800 ≤ n ∧ n ≤ 0x08FF then .dataWin ⟨n - 0x0800, by omega⟩
  else .unmapped

/-- The location an address names (R51); an address not listed is unmapped (R54). -/
def locate (a : Addr) : Loc :=
  match a.toNat with
  | 0x0000 => .cmd
  | 0x0001 => .res
  | 0x0002 => .flags
  | 0x0004 => .tagIn
  | 0x0005 => .tagCnt
  | 0x0006 => .bodyIn
  | 0x0007 => .bodyLen
  | 0x0008 => .rxIn
  | 0x0009 => .rxLenL
  | 0x000A => .rxLenH
  | 0x000B => .hexIn
  | 0x000C => .hexLen
  | 0x000D => .csum
  | 0x000E => .txLenL
  | 0x000F => .txLenH
  | 0x0010 => .decDelim
  | 0x0016 => .decCmd
  | 0x0017 => .decBcnt
  | 0x0018 => .dataLen
  | 0x0019 => .slenL
  | 0x001A => .slenH
  | n => locateWindow n

/-- The address of a location (R51); `unmapped` names many addresses and has none. -/
def addressOf (l : Loc) : Option Addr :=
  match l with
  | .cmd => some 0x0000#16
  | .res => some 0x0001#16
  | .flags => some 0x0002#16
  | .tagIn => some 0x0004#16
  | .tagCnt => some 0x0005#16
  | .bodyIn => some 0x0006#16
  | .bodyLen => some 0x0007#16
  | .rxIn => some 0x0008#16
  | .rxLenL => some 0x0009#16
  | .rxLenH => some 0x000A#16
  | .hexIn => some 0x000B#16
  | .hexLen => some 0x000C#16
  | .csum => some 0x000D#16
  | .txLenL => some 0x000E#16
  | .txLenH => some 0x000F#16
  | .decDelim => some 0x0010#16
  | .decAddr i => some (BitVec.ofNat 16 (0x0011 + i.val))
  | .decCmd => some 0x0016#16
  | .decBcnt => some 0x0017#16
  | .dataLen => some 0x0018#16
  | .slenL => some 0x0019#16
  | .slenH => some 0x001A#16
  | .flt i => some (BitVec.ofNat 16 (0x001C + i.val))
  | .paddr i => some (BitVec.ofNat 16 (0x0020 + i.val))
  | .tag i => some (BitVec.ofNat 16 (0x0028 + i.val))
  | .hexb i => some (BitVec.ofNat 16 (0x0030 + i.val))
  | .hexo i => some (BitVec.ofNat 16 (0x0038 + i.val))
  | .bodyWin i => some (BitVec.ofNat 16 (0x0100 + i.val))
  | .txWin i => some (BitVec.ofNat 16 (0x0200 + i.val))
  | .rxWin i => some (BitVec.ofNat 16 (0x0400 + i.val))
  | .dataWin i => some (BitVec.ofNat 16 (0x0800 + i.val))
  | .unmapped => none

/-! ## Transaction words of host programs -/

/-- The access a transaction word stands for: W is bit 24, ADDR bits 23:8, DATA bits 7:0 (R75). A word that has not
R75's form stands for none. -/
def decodeAccess (w : Word32) : Option Access :=
  if TransactionWordWellFormed w then
    if w.getLsbD 24 then some (.write (w.extractLsb' 8 16) (w.extractLsb' 0 8))
    else some (.read (w.extractLsb' 8 16))
  else none

/-- The transaction word of an access (R75). -/
def encodeAccess (x : Access) : Word32 :=
  match x with
  | .write a v => 0#7 ++ 1#1 ++ a ++ v
  | .read a => 0#7 ++ 0#1 ++ a ++ 0#8

/-- The accesses of a program given as transaction words (R75), none when some word has not the form. -/
def decodeProgram (ws : List Word32) : Option (List Access) :=
  match ws with
  | [] => some []
  | w :: rest =>
    match decodeAccess w, decodeProgram rest with
    | some x, some xs => some (x :: xs)
    | _, _ => none

/-! ## The host assembler -/

/-- The accesses an assembler form expands into (R76). -/
def expand (f : HostForm) : List Access :=
  match f with
  | .wr a v => [.write a v]
  | .rd a _ => [.read a]
  | .cmd i => [.write cmdAddr (opcodeOf i)]
  | .tag cs => cs.map (.write tagInAddr)
  | .body bs => bs.map (.write bodyInAddr)
  | .rx bs => bs.map (.write rxInAddr)
  | .hex cs => cs.map (.write hexInAddr)
  | .flt w =>
    [.write 0x001C#16 (w.extractLsb' 24 8), .write 0x001D#16 (w.extractLsb' 16 8),
     .write 0x001E#16 (w.extractLsb' 8 8), .write 0x001F#16 (w.extractLsb' 0 8)]

/-- The transaction words of a host program (R75, R76). -/
def assemble (fs : List HostForm) : List Word32 :=
  (fs.flatMap expand).map encodeAccess

end Sys2Proof
end

