-- ==== Sys2Proof/Machine/Params.lean ====
section
/-!
DEFINITION. The constants the source fixes (00_scope.md R8), and the parameters of the instance that State.reset
starts from (R7; log 1).
-/

namespace Sys2Proof.Machine

/-- `TAG_LEN`, 8 bytes (R8). -/
abbrev tagLen : Nat := 8
/-- `SYNC`, the sync byte 0xFF (R8). -/
abbrev syncByte : Byte := 0xFF#8
/-- `PREAMBLE_LEN`, 4 bytes (R8). -/
abbrev preambleLen : Nat := 4
/-- `TERM`, the frame terminator 0x00 (R8). -/
abbrev termByte : Byte := 0x00#8
/-- `HDR_LEN`, 8 bytes: delimiter 1, address 5, command 1, byte count 1 (R8). -/
abbrev hdrLen : Nat := 8
/-- `HEX_DIGITS`, 8 characters (R8). -/
abbrev hexDigits : Nat := 8
/-- `PAD_CHAR`, the ASCII character `'0'` (R8). -/
abbrev padChar : Byte := 0x30#8

/-- The parameters of the reset instance: `BODY_MAX` 255 and `RX_MAX` 512 are R7's defaults; `HEX_CASE` UPPER is what
the vectors of 95_test_vectors.md use; `CMD_LATENCY` is unobservable. DESIGN CHOICE (log 1): `HEX_CASE` and
`CMD_LATENCY` are OPEN, and statements are made for every instance. -/
def instanceConfig : Config :=
  { bodyMax := 255, rxMax := 512, hexCase := .upper, cmdLatency := 0 }

end Sys2Proof.Machine
end

