-- ==== Sys2Proof/Machine/State.lean ====
section
/-!
DEFINITION. The state. `Sfc` is the tuple of 10_state.md R24, entry for entry; `State` puts beside it what is not the
SFC's state: the instance's parameters (00_scope.md R7) and the host's side of the bus (logs 1, 2 and 3).
-/

namespace Sys2Proof.Machine

/-- The SFC's state: exactly the tuple of R24. -/
structure Sfc where
  /-- `TAG`: the last bytes written to TAG_IN, oldest first, at most 8 (R25). -/
  tag : List Byte
  /-- `PADDR[0..5]`: the PackedAddress (R26). -/
  paddr : Vector Byte 6
  /-- `BODY`: the command body, at most `BODY_MAX` bytes (R27). -/
  body : List Byte
  /-- `CSUM`: the checksum last computed by CSUM or FENC (R28). -/
  csum : Byte
  /-- `TX`: the last frame built by FENC (R29). -/
  tx : List Byte
  /-- `RX`: the received bytes, at most `RX_MAX` (R30). -/
  rx : List Byte
  /-- `SLEN`: length of the stripped sequence of the last FDEC, at most `RX_MAX` (R31; log 10). -/
  slen : Nat
  /-- `DEC_DELIM` (R32). -/
  decDelim : Byte
  /-- `DEC_ADDR[0..4]` (R32). -/
  decAddr : Vector Byte 5
  /-- `DEC_CMD` (R32). -/
  decCmd : Byte
  /-- `DEC_BCNT` (R32). -/
  decBcnt : Byte
  /-- `DATA`: the data field of the last decoded response, at most 255 bytes (R33). -/
  data : List Byte
  /-- `FLT`: a binary32 bit pattern, 32 opaque bits (R34). -/
  flt : Word32
  /-- `HEXB`: the hex characters written, at most 8 (R35). -/
  hexb : List Byte
  /-- `HEXO[0..7]`: the output of F2H (R35). -/
  hexo : Vector Byte 8
  /-- `RES`: the result code of the last command (R36, R160). -/
  res : Byte
  /-- `BODY_OVF`: a BODY_IN byte was dropped (R37). -/
  bodyOvf : Bool
  /-- `RX_OVF`: an RX_IN byte was dropped (R37). -/
  rxOvf : Bool
  /-- `HEX_OVF`: a HEX_IN byte was dropped (R37). -/
  hexOvf : Bool
deriving DecidableEq, Repr

/-- The host's side of the bus: the model's own, no state of the SFC (logs 2 and 3). -/
structure BusSide where
  /-- What the host will do, oldest first; a step serves the first (R65). -/
  pending : List HostEvent
  /-- The bytes the SFC has answered to bus reads, oldest first (R52). -/
  replies : List Byte
deriving DecidableEq, Repr

/-- The model's state: the instance's parameters, the SFC, and the host's side of the bus. -/
structure State where
  /-- The parameters (R7): no step changes them (log 1). -/
  cfg : Config
  /-- The state of the SFC (R24). -/
  sfc : Sfc
  /-- The host's side of the bus. -/
  bus : BusSide
deriving DecidableEq, Repr

/-- The result codes of R160. -/
inductive ResCode
  | ok | badCmd | tagShort | bodyOvf | rxOvf | decShort | decBounds | hexOvf | hexChar
deriving DecidableEq, Repr

/-- What stops the machine with a fault: nothing does. No access faults (20_memory.md R54) and a failing command is
a result code, no trap (60_exceptions.md R161), so the type has no constructor (log 11). -/
inductive Fault
deriving DecidableEq, Repr

/-- Why a command is refused. Every command of the table has its meaning, so no arm of `exec` uses it. -/
inductive Refusal
  /-- Raised by `exec` for a command that has no meaning yet, under its mnemonic; safe, since the run stops where the
  hardware goes on. No command is refused now. -/
  | notModelled (mnemonic : String)
deriving DecidableEq, Repr

/-- The outcome of a command or a step. -/
abbrev Result := Host.Outcome State Fault Refusal

/-- The reset values of R24 and R180: every list empty, every other entry zero. -/
def Sfc.reset : Sfc where
  tag := []
  paddr := #v[0, 0, 0, 0, 0, 0]
  body := []
  csum := 0
  tx := []
  rx := []
  slen := 0
  decDelim := 0
  decAddr := #v[0, 0, 0, 0, 0]
  decCmd := 0
  decBcnt := 0
  data := []
  flt := 0
  hexb := []
  hexo := #v[0, 0, 0, 0, 0, 0, 0, 0]
  res := 0
  bodyOvf := false
  rxOvf := false
  hexOvf := false

/-- An instance with the parameters `c` right after power-on reset: R180's values, and a host that has done nothing
yet (logs 2 and 3). -/
def State.resetWith (c : Config) : State where
  cfg := c
  sfc := Sfc.reset
  bus := { pending := [], replies := [] }

/-- The machine right after reset (R180), for the parameters of log 1. -/
def State.reset : State := State.resetWith instanceConfig

end Sys2Proof.Machine
end

