-- ==== Sys2Proof/Machine/Flags.lean ====
section
/-!
DEFINITION. Condition state: the values of the result codes (60_exceptions.md R160) and the FLAGS view of the three
overflow flags (10_state.md R37, R38).
-/

namespace Sys2Proof.Machine

/-- The value RES takes for a result code (R160). -/
def ResCode.code (c : ResCode) : Byte :=
  match c with
  | .ok => 0x00#8
  | .badCmd => 0x01#8
  | .tagShort => 0x02#8
  | .bodyOvf => 0x03#8
  | .rxOvf => 0x04#8
  | .decShort => 0x05#8
  | .decBounds => 0x06#8
  | .hexOvf => 0x07#8
  | .hexChar => 0x08#8

/-- The FLAGS register, `{0b00000, HEX_OVF, RX_OVF, BODY_OVF}` (R38, R51). -/
def flagsByte (d : Sfc) : Byte :=
  0#5 ++ BitVec.ofBool d.hexOvf ++ BitVec.ofBool d.rxOvf ++ BitVec.ofBool d.bodyOvf

end Sys2Proof.Machine
end

