-- ==== Sys2Proof/Machine/Operands.lean ====
section
/-!
DEFINITION. How operands are read and results are formed: bit fields (00_scope.md R9), list operations (R10), hex
digits (R12), packed-ASCII symbols (40_packed_ascii.md R91), the checksum function (41_checksum.md R100), the strip
function and the frame (42_frame.md R112, R113), and FLT's bytes (43_ieee_hex.md R131).
-/

namespace Sys2Proof.Machine

/-! ## Bit fields and lists -/

/-- `w[lo+m-1 : lo] <- v`: the field of width `m` from bit `lo` is replaced, other bits stay (R9). -/
def putField {n m : Nat} (w : BitVec n) (lo : Nat) (v : BitVec m) : BitVec n :=
  (w &&& ~~~((BitVec.allOnes m).setWidth n <<< lo)) ||| (v.setWidth n <<< lo)

/-- `last_n(n, s)`: the last `n` elements, all of `s` when there are no more (R10). -/
def lastN (n : Nat) (l : List Byte) : List Byte := l.drop (l.length - n)

/-- Element `i` if the list reaches it, else 0x00: what a read beyond a buffer's length returns (R53). -/
def byteAt (l : List Byte) (i : Nat) : Byte := l.getD i 0x00#8

/-! ## Packed ASCII -/

/-- The 6-bit symbol of a tag character, its bits 5:0 (R91). -/
def symbol (c : Byte) : BitVec 6 := c.extractLsb' 0 6

/-- The 48-bit stream `W` of R91: symbol `i` goes to bits 47-6i : 42-6i, most significant first (R59; log 12). -/
def packedStream (tag : List Byte) : BitVec 48 :=
  [0, 1, 2, 3, 4, 5, 6, 7].foldl (fun w i => putField w (42 - 6 * i) (symbol (byteAt tag i))) 0#48

/-- Byte `j` of the stream, bits 47-8j : 40-8j (R91). -/
def streamByte (w : BitVec 48) (j : Nat) : Byte := w.extractLsb' (40 - 8 * j) 8

/-- The six bytes of the stream, the highest first (R91). -/
def splitStream (w : BitVec 48) : Vector Byte 6 :=
  #v[streamByte w 0, streamByte w 1, streamByte w 2, streamByte w 3, streamByte w 4, streamByte w 5]

/-- The PackedAddress of a tag (R91). -/
def packTag (tag : List Byte) : Vector Byte 6 := splitStream (packedStream tag)

/-! ## Checksum, frame and strip -/

/-- `crc(s)`: skip the leading run of sync bytes, XOR the rest from 0x00 (R100). -/
def crc (s : List Byte) : Byte :=
  (s.dropWhile (fun b => b == syncByte)).foldl (fun x b => x ^^^ b) 0x00#8

/-- The frame of a body: preamble, body, checksum, terminator (R112). -/
def frameOf (body : List Byte) : List Byte :=
  List.replicate preambleLen syncByte ++ body ++ [crc body] ++ [termByte]

/-- `strip(r)`: every 0xFF removed, the order of the rest kept (R113, R116). -/
def strip (r : List Byte) : List Byte := r.filter (fun b => b != syncByte)

/-! ## Hex text -/

/-- `hexval(c)`: both letter cases are digits; `none` for a byte that is not a hex digit, where R12 leaves it
undefined. -/
def hexval (c : Byte) : Option Nibble :=
  let n := c.toNat
  if 0x30 ≤ n ∧ n ≤ 0x39 then some (BitVec.ofNat 4 (n - 0x30))
  else if 0x41 ≤ n ∧ n ≤ 0x46 then some (BitVec.ofNat 4 (n - 0x41 + 10))
  else if 0x61 ≤ n ∧ n ≤ 0x66 then some (BitVec.ofNat 4 (n - 0x61 + 10))
  else none

/-- `hexchar(n)`: letters in the instance's `HEX_CASE` (R12). -/
def hexchar (hc : HexCase) (n : Nibble) : Byte :=
  if n.toNat < 10 then BitVec.ofNat 8 (0x30 + n.toNat)
  else
    match hc with
    | .upper => BitVec.ofNat 8 (0x41 + (n.toNat - 10))
    | .lower => BitVec.ofNat 8 (0x61 + (n.toNat - 10))

/-- Nibble `i` of FLT from the most significant, bits 31-4i : 28-4i (R133). -/
def nibbleAt (w : Word32) (i : Nat) : Nibble := w.extractLsb' (28 - 4 * i) 4

/-- The eight hex characters of a word, most significant nibble first (R133). -/
def hexText (hc : HexCase) (w : Word32) : Vector Byte 8 :=
  let c := fun i => hexchar hc (nibbleAt w i)
  #v[c 0, c 1, c 2, c 3, c 4, c 5, c 6, c 7]

/-- The hex string H2F reads: HEXB padded on the right with `'0'` to 8 characters (R134). -/
def paddedHex (hexb : List Byte) : List Byte :=
  hexb ++ List.replicate (hexDigits - hexb.length) padChar

/-- Shift the digits of a hex string into a word, first digit highest; `none` at a byte that is no hex digit. -/
def shiftInDigits (w : Word32) (t : List Byte) : Option Word32 :=
  match t with
  | [] => some w
  | c :: rest =>
    match hexval c with
    | none => none
    | some d => shiftInDigits (w <<< 4 ||| d.setWidth 32) rest

/-- `{ hexval(t[0]), ..., hexval(t[7]) }`, or `none` when some `t[i]` is not a hex digit (R134). -/
def hexWord (t : List Byte) : Option Word32 := shiftInDigits 0#32 t

/-! ## FLT's bytes -/

/-- `FLT[31-8i : 24-8i]` (R58, R131). -/
def fltByte (w : Word32) (i : Fin 4) : Byte := w.extractLsb' (24 - 8 * i.val) 8

/-- `FLT[31-8i : 24-8i] <- v`, other bits unchanged (R131). -/
def setFltByte (w : Word32) (i : Fin 4) (v : Byte) : Word32 := putField w (24 - 8 * i.val) v

end Sys2Proof.Machine
end

