-- ==== Sys2Proof/Machine/Ops.lean ====
section
/-!
DEFINITION. The shared operations: how a command ends (00_scope.md R11, 44_control.md R153), the ports, the reading
and writing of register-map locations (20_memory.md R51 to R56), and the host's queue. The SFC has no traps
(60_exceptions.md R161): `fail` stands where a processor's model takes an exception, and there is nothing to return
from (R164).
-/

namespace Sys2Proof.Machine

/-! ## Updates of the state -/

/-- Replace the SFC's state. -/
def State.withSfc (s : State) (d : Sfc) : State := { s with sfc := d }

/-- Replace the host's coming events. -/
def State.withPending (s : State) (evs : List HostEvent) : State :=
  { s with bus := { s.bus with pending := evs } }

/-- Answer a bus read. -/
def State.reply (s : State) (b : Byte) : State :=
  { s with bus := { s.bus with replies := s.bus.replies ++ [b] } }

/-! ## How a command ends -/

/-- A command ends with the SFC's state `d` and its result code, written last and once; all its writes take effect
together (R62, R153). -/
def complete (d : Sfc) (c : ResCode) (s : State) : Result :=
  .next (s.withSfc { d with res := c.code })

/-- A command succeeds: `RES <- OK` after its other writes. -/
def succeed (d : Sfc) (s : State) : Result := complete d .ok s

/-- `fail(code)`: write RES and make no other write (R11, R161). -/
def fail (c : ResCode) (s : State) : Result := complete s.sfc c s

/-! ## The ports -/

/-- `TagPortWrite(v)`: keep the last 8 bytes written (R90). -/
def tagPortWrite (v : Byte) (d : Sfc) : Sfc :=
  { d with tag := lastN tagLen (d.tag ++ [v]) }

/-- `BodyPortWrite(v)`: append, or drop the byte and set BODY_OVF when BODY is full (R110). -/
def bodyPortWrite (cfg : Config) (v : Byte) (d : Sfc) : Sfc :=
  if d.body.length < cfg.bodyMax then { d with body := d.body ++ [v] }
  else { d with bodyOvf := true }

/-- `RxPortWrite(v)`: append, or drop the byte and set RX_OVF when RX is full (R111). -/
def rxPortWrite (cfg : Config) (v : Byte) (d : Sfc) : Sfc :=
  if d.rx.length < cfg.rxMax then { d with rx := d.rx ++ [v] }
  else { d with rxOvf := true }

/-- `HexPortWrite(v)`: append, or drop the byte and set HEX_OVF when HEXB holds 8 (R132). -/
def hexPortWrite (v : Byte) (d : Sfc) : Sfc :=
  if d.hexb.length < hexDigits then { d with hexb := d.hexb ++ [v] }
  else { d with hexOvf := true }

/-! ## The register map -/

/-- Bits 7:0 of a length (R56). -/
def lengthLow (n : Nat) : Byte := BitVec.ofNat 8 n

/-- Bits 9:8 of a length in bits 1:0, bits 7:2 zero (R56). -/
def lengthHigh (n : Nat) : Byte := ((BitVec.ofNat 10 n).extractLsb' 8 2).setWidth 8

/-- The read value of a location (R51, R53); write-only and unmapped locations read 0x00 (R51, R54). -/
def readLoc (l : Loc) (d : Sfc) : Byte :=
  match l with
  | .cmd => 0x00#8
  | .res => d.res
  | .flags => flagsByte d
  | .tagIn => 0x00#8
  | .tagCnt => lengthLow d.tag.length
  | .bodyIn => 0x00#8
  | .bodyLen => lengthLow d.body.length
  | .rxIn => 0x00#8
  | .rxLenL => lengthLow d.rx.length
  | .rxLenH => lengthHigh d.rx.length
  | .hexIn => 0x00#8
  | .hexLen => lengthLow d.hexb.length
  | .csum => d.csum
  | .txLenL => lengthLow d.tx.length
  | .txLenH => lengthHigh d.tx.length
  | .decDelim => d.decDelim
  | .decAddr i => d.decAddr[i]
  | .decCmd => d.decCmd
  | .decBcnt => d.decBcnt
  | .dataLen => lengthLow d.data.length
  | .slenL => lengthLow d.slen
  | .slenH => lengthHigh d.slen
  | .flt i => fltByte d.flt i
  | .paddr i => d.paddr[i]
  | .tag i => byteAt d.tag i.val
  | .hexb i => byteAt d.hexb i.val
  | .hexo i => d.hexo[i]
  | .bodyWin i => byteAt d.body i.val
  | .txWin i => byteAt d.tx i.val
  | .rxWin i => byteAt d.rx i.val
  | .dataWin i => byteAt d.data i.val
  | .unmapped => 0x00#8

/-- `BusRead(a)` (R52). -/
def busRead (a : Addr) (d : Sfc) : Byte := readLoc (locate a) d

/-- The write effect of a location other than CMD: a port, an FLT byte, or none (R54, R55). CMD runs a command
instead (`busWrite` in Bus.lean) and stores nothing itself (R38). -/
def writeLoc (cfg : Config) (l : Loc) (v : Byte) (d : Sfc) : Sfc :=
  match l with
  | .tagIn => tagPortWrite v d
  | .bodyIn => bodyPortWrite cfg v d
  | .rxIn => rxPortWrite cfg v d
  | .hexIn => hexPortWrite v d
  | .flt i => { d with flt := setFltByte d.flt i v }
  | .cmd | .res | .flags | .tagCnt | .bodyLen | .rxLenL | .rxLenH | .hexLen | .csum | .txLenL | .txLenH
  | .decDelim | .decAddr _ | .decCmd | .decBcnt | .dataLen | .slenL | .slenH | .paddr _ | .tag _ | .hexb _
  | .hexo _ | .bodyWin _ | .txWin _ | .rxWin _ | .dataWin _ | .unmapped => d

/-! ## Reset and the host's queue -/

/-- Power-on reset: every entry of R24 to its reset value (R180); the parameters and the host's side are no state of
the SFC (R21; log 5). -/
def powerOnReset (s : State) : State := s.withSfc Sfc.reset

/-- Put events in front of the host's queue, the first of them to be served next. -/
def State.give (s : State) (evs : List HostEvent) : State := s.withPending (evs ++ s.bus.pending)

/-- The event that runs a command: one write of its OP to CMD (R70). -/
def cmdWrite (op : Byte) : HostEvent := .access (.write cmdAddr op)

end Sys2Proof.Machine
end

