-- ==== Sys2Proof/Machine/Checksum.lean ====
section
/-!
DEFINITION. The checksum command CSUM (41_checksum.md R101) over the checksum function of R100.
-/

namespace Sys2Proof.Machine

/-- CSUM (R101): fails with E_BODY_OVF, CSUM unchanged, when a body byte was dropped. -/
def execCsum (s : State) : Result :=
  if s.sfc.bodyOvf then fail .bodyOvf s
  else succeed { s.sfc with csum := crc s.sfc.body } s

end Sys2Proof.Machine
end

