-- ==== Sys2Proof/Machine/Control.lean ====
section
/-!
DEFINITION. The control commands: NOP (44_control.md R150), SRST (R151) and the reserved codes (R152).
-/

namespace Sys2Proof.Machine

/-- NOP (R150): `RES <- OK` and no other effect. -/
def execNop (s : State) : Result := succeed s.sfc s

/-- SRST (R151): every entry of R24 to its reset value, as power-on reset (R180); RES among them, to 0x00. -/
def execSrst (s : State) : Result := succeed Sfc.reset s

/-- BADCMD (R152): `RES <- E_BADCMD` and nothing else; the bad OP is not kept (R160). -/
def execBadcmd (_op : Byte) (s : State) : Result := fail .badCmd s

end Sys2Proof.Machine
end

