-- ==== Sys2Proof/Machine/Frame.lean ====
section
/-!
DEFINITION. The frame codec: FENC (42_frame.md R112), FDEC (R114), CLR_BODY (R118) and CLR_RX (R119).
-/

namespace Sys2Proof.Machine

/-- FENC (R112): the checksum of BODY into CSUM and the frame into TX; fails with E_BODY_OVF, both unchanged. -/
def execFenc (s : State) : Result :=
  if s.sfc.bodyOvf then fail .bodyOvf s
  else succeed { s.sfc with csum := crc s.sfc.body, tx := frameOf s.sfc.body } s

/-- The writes of an FDEC whose stripped sequence has no byte count: SLEN, a zero header, no data (R114, R163). -/
def decodeShort (st : List Byte) (d : Sfc) : Sfc :=
  { d with
    slen := st.length, decDelim := 0x00#8, decAddr := #v[0, 0, 0, 0, 0], decCmd := 0x00#8, decBcnt := 0x00#8,
    data := [] }

/-- The header fields of a stripped sequence at their byte offsets, with the data field given (R114). -/
def decodeHeader (st : List Byte) (data : List Byte) (d : Sfc) : Sfc :=
  { d with
    slen := st.length, decDelim := byteAt st 0,
    decAddr := #v[byteAt st 1, byteAt st 2, byteAt st 3, byteAt st 4, byteAt st 5],
    decCmd := byteAt st 6, decBcnt := byteAt st 7, data := data }

/-- FDEC (R114): overflow first, then a missing byte count, then a data slice that runs past the end (R162). It
checks nothing else (R115) and keeps RX. -/
def execFdec (s : State) : Result :=
  if s.sfc.rxOvf then fail .rxOvf s
  else
    let st := strip s.sfc.rx
    if st.length < hdrLen then complete (decodeShort st s.sfc) .decShort s
    else
      let n := (byteAt st 7).toNat
      if hdrLen + n > st.length then complete (decodeHeader st [] s.sfc) .decBounds s
      else succeed (decodeHeader st ((st.drop hdrLen).take n) s.sfc) s

/-- CLR_BODY (R118). -/
def execClrBody (s : State) : Result := succeed { s.sfc with body := [], bodyOvf := false } s

/-- CLR_RX (R119). -/
def execClrRx (s : State) : Result := succeed { s.sfc with rx := [], rxOvf := false } s

end Sys2Proof.Machine
end

