-- ==== Sys2Proof/Machine/IeeeHex.lean ====
section
/-!
DEFINITION. The converter between FLT and hex text: F2H (43_ieee_hex.md R133), H2F (R134) and CLR_HEX (R135). Both
conversions move bits and interpret none (R136).
-/

namespace Sys2Proof.Machine

/-- F2H (R133): every 32-bit pattern converts. -/
def execF2h (s : State) : Result :=
  succeed { s.sfc with hexo := hexText s.cfg.hexCase s.sfc.flt } s

/-- H2F (R134): overflow first, then a byte that is no hex digit (R162); FLT unchanged on both. -/
def execH2f (s : State) : Result :=
  if s.sfc.hexOvf then fail .hexOvf s
  else
    match hexWord (paddedHex s.sfc.hexb) with
    | none => fail .hexChar s
    | some w => succeed { s.sfc with flt := w } s

/-- CLR_HEX (R135). -/
def execClrHex (s : State) : Result := succeed { s.sfc with hexb := [], hexOvf := false } s

end Sys2Proof.Machine
end

