-- ==== Sys2Proof/Machine/PackedAscii.lean ====
section
/-!
DEFINITION. The packed-ASCII family: PACK (40_packed_ascii.md R91) and CLR_TAG (R92).
-/

namespace Sys2Proof.Machine

/-- PACK (R91): needs exactly 8 tag characters, else E_TAG_SHORT and PADDR unchanged. -/
def execPack (s : State) : Result :=
  if s.sfc.tag.length ≠ tagLen then fail .tagShort s
  else succeed { s.sfc with paddr := packTag s.sfc.tag } s

/-- CLR_TAG (R92). -/
def execClrTag (s : State) : Result := succeed { s.sfc with tag := [] } s

end Sys2Proof.Machine
end

