-- ==== Sys2Proof/Machine/Dispatch.lean ====
section
/-!
DEFINITION. The meaning of every command, one arm per constructor (30_encoding.md R71, R73).
-/

namespace Sys2Proof.Machine

def exec (i : Instr) (s : State) : Host.Outcome State Fault Refusal :=
  match i with
  | .nop => Sys2Proof.Machine.execNop s
  | .pack => Sys2Proof.Machine.execPack s
  | .csum => Sys2Proof.Machine.execCsum s
  | .fenc => Sys2Proof.Machine.execFenc s
  | .fdec => Sys2Proof.Machine.execFdec s
  | .f2h => Sys2Proof.Machine.execF2h s
  | .h2f => Sys2Proof.Machine.execH2f s
  | .clrTag => Sys2Proof.Machine.execClrTag s
  | .clrBody => Sys2Proof.Machine.execClrBody s
  | .clrRx => Sys2Proof.Machine.execClrRx s
  | .clrHex => Sys2Proof.Machine.execClrHex s
  | .srst => Sys2Proof.Machine.execSrst s
  | .badcmd op => Sys2Proof.Machine.execBadcmd op s

end Sys2Proof.Machine
end

