-- ==== Sys2Proof/Machine/Bus.lean ====
section
/-!
DEFINITION. What one event of the host does: `BusRead` and `BusWrite` (20_memory.md R52, R55) and power-on reset
(70_reset_and_hazards.md R180). Each takes effect in full before the next starts (R62, R65).
-/

namespace Sys2Proof.Machine

/-- `BusWrite(a, v)` (R55): at CMD the command decoded from `v`, elsewhere the location's write effect. -/
def busWrite (a : Addr) (v : Byte) (s : State) : Result :=
  match locate a with
  | .cmd => exec (decodeOp v) s
  | l => .next (s.withSfc (writeLoc s.cfg l v s.sfc))

/-- One bus access: a read answers a byte and changes nothing in the SFC (R52). -/
def runAccess (x : Access) (s : State) : Result :=
  match x with
  | .read a => .next (s.reply (busRead a s.sfc))
  | .write a v => busWrite a v s

/-- One event of the host. -/
def runEvent (e : HostEvent) (s : State) : Result :=
  match e with
  | .access x => runAccess x s
  | .powerOn => .next (powerOnReset s)

/-- Serve the host's next event; with none, nothing changes, since the SFC takes no step of its own (R20; log 4). -/
def serveNext (s : State) : Result :=
  match s.bus.pending with
  | [] => .next s
  | e :: rest => runEvent e (s.withPending rest)

/-- The event by which the host runs the command whose bits are `w`, as opcode_table.json numbers them. -/
def commandEvent (nbits w : Nat) : HostEvent := cmdWrite (BitVec.ofNat 8 (tableBits nbits w))

end Sys2Proof.Machine
end

