-- ==== Sys2Proof/Machine/Step.lean ====
section
/-!
DEFINITION. One step of the machine: one event of the host, the oldest first (20_memory.md R65). The SFC has no
program counter and fetches nothing (10_state.md R23): what takes the place of a fetch is the host's next event.
-/

namespace Sys2Proof.Machine

/-- One step: serve the host's next event. -/
def step (s : State) : Host.Outcome State Fault Refusal := serveNext s

/-- `s` with the command whose bits are `w` as the host's very next event: a write of its OP to CMD, put in front of
what the host has pending (log 2). -/
def State.withFetchWord (s : State) (nbits w : Nat) : State := s.give [commandEvent nbits w]

end Sys2Proof.Machine
end

