-- ==== Sys2Proof/Safety.lean ====
section
/-!
DEFINITION. What claims are stated with: the invariant of the SFC's state (the bounds of 10_state.md R24 and what the
rules say of each entry's contents), and runs of a list of host events.
-/

namespace Sys2Proof.Machine

/-- The invariant of the SFC's state under the parameters `c`. -/
structure Sfc.Inv (c : Config) (d : Sfc) : Prop where
  /-- `len(TAG)` in 0..8 (R24). -/
  tag_len : d.tag.length ≤ 8
  /-- `len(BODY)` in 0..`BODY_MAX` (R24). -/
  body_len : d.body.length ≤ c.bodyMax
  /-- `len(RX)` in 0..`RX_MAX` (R24). -/
  rx_len : d.rx.length ≤ c.rxMax
  /-- `SLEN` in 0..`RX_MAX` (R24). -/
  slen_le : d.slen ≤ c.rxMax
  /-- `len(HEXB)` in 0..8 (R24). -/
  hexb_len : d.hexb.length ≤ 8
  /-- TX is empty, or the frame of some body that fits BODY (R29, R112); so its length is 0 or 6..`BODY_MAX`+6. -/
  tx_frame : d.tx = [] ∨ ∃ b : List Byte, b.length ≤ c.bodyMax ∧ d.tx = frameOf b
  /-- DATA is empty or as long as DEC_BCNT says (R33); so its length is in 0..255. -/
  data_len : d.data = [] ∨ d.data.length = d.decBcnt.toNat
  /-- No sync byte survives decoding (R113, R116). -/
  no_sync : d.decDelim ≠ syncByte ∧ d.decCmd ≠ syncByte ∧ d.decBcnt ≠ syncByte ∧
    syncByte ∉ d.decAddr.toList ∧ syncByte ∉ d.data
  /-- RES is one of the nine codes (R160). -/
  res_code : ∃ r : ResCode, d.res = r.code
  /-- An overflow flag is set only over a full buffer (R37, R160). -/
  ovf_full : (d.bodyOvf = true → d.body.length = c.bodyMax) ∧ (d.rxOvf = true → d.rx.length = c.rxMax) ∧
    (d.hexOvf = true → d.hexb.length = 8)

/-- The invariant of a state: its parameters are legal (R7) and its SFC keeps `Sfc.Inv` under them. -/
def State.Inv (s : State) : Prop := s.cfg.Legal ∧ s.sfc.Inv s.cfg

/-- `k` steps, stopping at a fault or a refusal. -/
def runSteps (k : Nat) (s : State) : Result :=
  match k with
  | 0 => .next s
  | k + 1 =>
    match step s with
    | .next t => runSteps k t
    | .fault r => .fault r
    | .refused r => .refused r

/-- Run the host events `evs` from `s`, one step each, in place of whatever the host had pending. -/
def runEvents (evs : List HostEvent) (s : State) : Result := runSteps evs.length (s.withPending evs)

/-- The event of a bus write. -/
abbrev busWriteEvent (a : Addr) (v : Byte) : HostEvent := .access (.write a v)

/-- The event of a bus read. -/
abbrev busReadEvent (a : Addr) : HostEvent := .access (.read a)

end Sys2Proof.Machine
end

