-- ==== Sys2Proof/Certificates/Slice0/Obligations.lean ====
section
/-!
DEFINITION. What is claimed of the model, one statement each, from the rules of spec/. A statement about a command is
an equation between `exec` and its next state, so it says the command's result, its completion and its frame at once.
Statements hold for every instance (`s.cfg` is arbitrary, or legal where a bound is needed).
-/

open Sys2Proof Sys2Proof.Machine

/-! ## Encoding -/

/-- 30_encoding.md section 1, R71's table: the twelve OPs, written out bit by bit, select their commands. -/
def Obligations.OpcodeMapDecodesItsTwelveWords : Prop :=
  decode [0b00000000#8] = .ok (.nop, []) ∧ decode [0b00000001#8] = .ok (.pack, []) ∧
  decode [0b00000010#8] = .ok (.csum, []) ∧ decode [0b00000011#8] = .ok (.fenc, []) ∧
  decode [0b00000100#8] = .ok (.fdec, []) ∧ decode [0b00000101#8] = .ok (.f2h, []) ∧
  decode [0b00000110#8] = .ok (.h2f, []) ∧ decode [0b00001000#8] = .ok (.clrTag, []) ∧
  decode [0b00001001#8] = .ok (.clrBody, []) ∧ decode [0b00001010#8] = .ok (.clrRx, []) ∧
  decode [0b00001011#8] = .ok (.clrHex, []) ∧ decode [0b00001111#8] = .ok (.srst, [])

/-- 30_encoding.md sections 1 to 3: decoding gives back every well-formed command and the bytes after its one byte,
and whatever decodes is well-formed and re-encodes to the bytes it came from. -/
def Obligations.CommandDecodeEncodeAgree : Prop :=
  (∀ (i : Instr) (rest : List Byte), i.WellFormed → decode (encode i ++ rest) = .ok (i, rest)) ∧
  (∀ (bytes rest : List Byte) (i : Instr), decode bytes = .ok (i, rest) →
    i.WellFormed ∧ encode i ++ rest = bytes)

/-- R73: the reserved OPs are exactly these, 244 of them, and writing one to CMD sets RES to E_BADCMD and changes
nothing else. -/
def Obligations.ReservedCodesOnlySetBadCommand : Prop :=
  (∀ op : Byte, decodeOp op = .badcmd op ↔
    op = 0x07#8 ∨ op = 0x0C#8 ∨ op = 0x0D#8 ∨ op = 0x0E#8 ∨ 0x10 ≤ op.toNat) ∧
  ((List.range 256).filter fun n => decodeOp (BitVec.ofNat 8 n) == .badcmd (BitVec.ofNat 8 n)).length = 244 ∧
  (∀ (op : Byte) (s : State), decodeOp op = .badcmd op →
    busWrite 0x0000#16 op s = .next { s with sfc := { s.sfc with res := 0x01#8 } })

/-- R75: the fields of a transaction word, its examples, and that programs of accesses and the words that have R75's
form correspond one to one. -/
def Obligations.TransactionWordsRoundTrip : Prop :=
  (∀ (a : Addr) (v : Byte),
    (encodeAccess (.write a v)).extractLsb' 25 7 = 0#7 ∧ (encodeAccess (.write a v)).getLsbD 24 = true ∧
    (encodeAccess (.write a v)).extractLsb' 8 16 = a ∧ (encodeAccess (.write a v)).extractLsb' 0 8 = v) ∧
  (∀ a : Addr,
    (encodeAccess (.read a)).extractLsb' 25 7 = 0#7 ∧ (encodeAccess (.read a)).getLsbD 24 = false ∧
    (encodeAccess (.read a)).extractLsb' 8 16 = a ∧ (encodeAccess (.read a)).extractLsb' 0 8 = 0x00#8) ∧
  encodeAccess (.write 0x0000#16 0x01#8) = 0x01000001#32 ∧ encodeAccess (.read 0x0001#16) = 0x00000100#32 ∧
  (∀ xs : List Access, decodeProgram (xs.map encodeAccess) = some xs) ∧
  (∀ (ws : List Word32) (xs : List Access), decodeProgram ws = some xs → xs.map encodeAccess = ws) ∧
  (∀ w : Word32, (∃ x, decodeAccess w = some x) ↔
    w.extractLsb' 25 7 = 0#7 ∧ (w.getLsbD 24 = true ∨ w.extractLsb' 0 8 = 0x00#8))

/-- 20_memory.md section 1: the register map names each mapped location by exactly one address, and the unmapped
addresses are exactly R54's. -/
def Obligations.RegisterMapIsOneToOne : Prop :=
  (∀ (l : Loc) (a : Addr), addressOf l = some a → locate a = l) ∧
  (∀ a : Addr, locate a ≠ .unmapped → addressOf (locate a) = some a) ∧
  (∀ a : Addr, locate a = .unmapped ↔
    a.toNat = 0x0003 ∨ a.toNat = 0x001B ∨ a.toNat = 0x0026 ∨ a.toNat = 0x0027 ∨
    (0x0040 ≤ a.toNat ∧ a.toNat ≤ 0x00FF) ∨ 0x0900 ≤ a.toNat)

/-- R76: each assembler form's expansion into transaction words. -/
def Obligations.AssemblerFormsExpandAsListed : Prop :=
  (∀ (a : Addr) (v : Byte), assemble [.wr a v] = [(0b0000000#7 ++ 1#1 ++ a ++ v : BitVec 32)]) ∧
  (∀ (a : Addr) (e : Byte), assemble [.rd a e] = [(0b0000000#7 ++ 0#1 ++ a ++ 0x00#8 : BitVec 32)]) ∧
  (∀ i : Instr, assemble [.cmd i] = assemble [.wr 0x0000#16 (opcodeOf i)]) ∧
  (∀ cs : List Byte, assemble [.tag cs] = assemble (cs.map (.wr 0x0004#16))) ∧
  (∀ bs : List Byte, assemble [.body bs] = assemble (bs.map (.wr 0x0006#16))) ∧
  (∀ bs : List Byte, assemble [.rx bs] = assemble (bs.map (.wr 0x0008#16))) ∧
  (∀ cs : List Byte, assemble [.hex cs] = assemble (cs.map (.wr 0x000B#16))) ∧
  (∀ w : Word32, assemble [.flt w] = assemble [.wr 0x001C#16 (w.extractLsb' 24 8),
    .wr 0x001D#16 (w.extractLsb' 16 8), .wr 0x001E#16 (w.extractLsb' 8 8), .wr 0x001F#16 (w.extractLsb' 0 8)])

/-! ## Steps and the bus -/

/-- 30_encoding.md section 1 and 20_memory.md section 4: when the host's next event writes `op` to CMD, the step is
the execution of the command `op` decodes to, with that one event gone from the host's list. -/
def Obligations.StepRunsTheDecodedCommand : Prop :=
  ∀ (s : State) (op : Byte) (i : Instr) (rest : List HostEvent),
    s.bus.pending = .access (.write 0x0000#16 op) :: rest → decode [op] = .ok (i, []) →
    step s = exec i { s with bus := { s.bus with pending := rest } }

/-- R55: what a bus write does, address by address. -/
def Obligations.BusWriteDoesExactlyItsCase : Prop :=
  ∀ (s : State) (a : Addr) (v : Byte) (rest : List HostEvent),
    s.bus.pending = .access (.write a v) :: rest →
    let t : State := { s with bus := { s.bus with pending := rest } }
    step s =
      if a = 0x0000#16 then exec (decodeOp v) t
      else if a = 0x0004#16 then .next { t with sfc := tagPortWrite v s.sfc }
      else if a = 0x0006#16 then .next { t with sfc := bodyPortWrite s.cfg v s.sfc }
      else if a = 0x0008#16 then .next { t with sfc := rxPortWrite s.cfg v s.sfc }
      else if a = 0x000B#16 then .next { t with sfc := hexPortWrite v s.sfc }
      else if a = 0x001C#16 then
        .next { t with sfc := { s.sfc with flt := v ++ s.sfc.flt.extractLsb' 0 24 } }
      else if a = 0x001D#16 then
        .next { t with sfc := { s.sfc with flt := s.sfc.flt.extractLsb' 24 8 ++ v ++ s.sfc.flt.extractLsb' 0 16 } }
      else if a = 0x001E#16 then
        .next { t with sfc := { s.sfc with flt := s.sfc.flt.extractLsb' 16 16 ++ v ++ s.sfc.flt.extractLsb' 0 8 } }
      else if a = 0x001F#16 then
        .next { t with sfc := { s.sfc with flt := s.sfc.flt.extractLsb' 8 24 ++ v } }
      else .next t

/-- R52 with the read column of R51: a read answers the table's value and changes nothing else, an unmapped address
reads 0x00, and two reads in a row of one address answer the same byte. -/
def Obligations.BusReadAnswersTheMapValueWithoutEffect : Prop :=
  (∀ (s : State) (a : Addr) (rest : List HostEvent), s.bus.pending = .access (.read a) :: rest →
    step s = .next { s with bus := { pending := rest, replies := s.bus.replies ++ [busRead a s.sfc] } }) ∧
  (∀ (s : State) (a : Addr), ∃ b : Byte,
    runEvents [busReadEvent a, busReadEvent a] s =
      .next { s with bus := { pending := [], replies := s.bus.replies ++ [b, b] } }) ∧
  (∀ d : Sfc,
    busRead 0x0000#16 d = 0x00#8 ∧ busRead 0x0001#16 d = d.res ∧
    busRead 0x0002#16 d = (0b00000#5 ++ BitVec.ofBool d.hexOvf ++ BitVec.ofBool d.rxOvf ++
      BitVec.ofBool d.bodyOvf : BitVec 8) ∧
    busRead 0x0004#16 d = 0x00#8 ∧ busRead 0x0005#16 d = BitVec.ofNat 8 d.tag.length ∧
    busRead 0x0006#16 d = 0x00#8 ∧ busRead 0x0007#16 d = BitVec.ofNat 8 d.body.length ∧
    busRead 0x0008#16 d = 0x00#8 ∧ busRead 0x0009#16 d = BitVec.ofNat 8 d.rx.length ∧
    busRead 0x000A#16 d = BitVec.ofNat 8 (d.rx.length / 256 % 4) ∧
    busRead 0x000B#16 d = 0x00#8 ∧ busRead 0x000C#16 d = BitVec.ofNat 8 d.hexb.length ∧
    busRead 0x000D#16 d = d.csum ∧ busRead 0x000E#16 d = BitVec.ofNat 8 d.tx.length ∧
    busRead 0x000F#16 d = BitVec.ofNat 8 (d.tx.length / 256 % 4) ∧
    busRead 0x0010#16 d = d.decDelim ∧
    (∀ i : Fin 5, busRead (BitVec.ofNat 16 (0x0011 + i.val)) d = d.decAddr[i]) ∧
    busRead 0x0016#16 d = d.decCmd ∧ busRead 0x0017#16 d = d.decBcnt ∧
    busRead 0x0018#16 d = BitVec.ofNat 8 d.data.length ∧ busRead 0x0019#16 d = BitVec.ofNat 8 d.slen ∧
    busRead 0x001A#16 d = BitVec.ofNat 8 (d.slen / 256 % 4) ∧
    busRead 0x001C#16 d = d.flt.extractLsb' 24 8 ∧ busRead 0x001D#16 d = d.flt.extractLsb' 16 8 ∧
    busRead 0x001E#16 d = d.flt.extractLsb' 8 8 ∧ busRead 0x001F#16 d = d.flt.extractLsb' 0 8 ∧
    (∀ i : Fin 6, busRead (BitVec.ofNat 16 (0x0020 + i.val)) d = d.paddr[i]) ∧
    (∀ i : Fin 8, busRead (BitVec.ofNat 16 (0x0028 + i.val)) d = d.tag.getD i.val 0x00#8) ∧
    (∀ i : Fin 8, busRead (BitVec.ofNat 16 (0x0030 + i.val)) d = d.hexb.getD i.val 0x00#8) ∧
    (∀ i : Fin 8, busRead (BitVec.ofNat 16 (0x0038 + i.val)) d = d.hexo[i]) ∧
    (∀ i : Fin 256, busRead (BitVec.ofNat 16 (0x0100 + i.val)) d = d.body.getD i.val 0x00#8) ∧
    (∀ i : Fin 512, busRead (BitVec.ofNat 16 (0x0200 + i.val)) d = d.tx.getD i.val 0x00#8) ∧
    (∀ i : Fin 1024, busRead (BitVec.ofNat 16 (0x0400 + i.val)) d = d.rx.getD i.val 0x00#8) ∧
    (∀ i : Fin 256, busRead (BitVec.ofNat 16 (0x0800 + i.val)) d = d.data.getD i.val 0x00#8) ∧
    (∀ a : Addr, a.toNat = 0x0003 ∨ a.toNat = 0x001B ∨ a.toNat = 0x0026 ∨ a.toNat = 0x0027 ∨
      (0x0040 ≤ a.toNat ∧ a.toNat ≤ 0x00FF) ∨ 0x0900 ≤ a.toNat → busRead a d = 0x00#8))

/-- R53: every read of a window or an indexed register at or beyond the buffer's length answers 0x00. -/
def Obligations.ReadsBeyondTheLengthAnswerZero : Prop :=
  ∀ d : Sfc,
    (∀ i : Fin 8, d.tag.length ≤ i.val → busRead (BitVec.ofNat 16 (0x0028 + i.val)) d = 0x00#8) ∧
    (∀ i : Fin 8, d.hexb.length ≤ i.val → busRead (BitVec.ofNat 16 (0x0030 + i.val)) d = 0x00#8) ∧
    (∀ i : Fin 256, d.body.length ≤ i.val → busRead (BitVec.ofNat 16 (0x0100 + i.val)) d = 0x00#8) ∧
    (∀ i : Fin 512, d.tx.length ≤ i.val → busRead (BitVec.ofNat 16 (0x0200 + i.val)) d = 0x00#8) ∧
    (∀ i : Fin 1024, d.rx.length ≤ i.val → busRead (BitVec.ofNat 16 (0x0400 + i.val)) d = 0x00#8) ∧
    (∀ i : Fin 256, d.data.length ≤ i.val → busRead (BitVec.ofNat 16 (0x0800 + i.val)) d = 0x00#8)

/-- R54: unmapped addresses read 0x00; a write to an unmapped or a read-only address changes no state, RES included;
no access faults. -/
def Obligations.UnmappedAndReadOnlyAccessesAreHarmless : Prop :=
  (∀ (d : Sfc) (a : Addr), a.toNat = 0x0003 ∨ a.toNat = 0x001B ∨ a.toNat = 0x0026 ∨ a.toNat = 0x0027 ∨
    (0x0040 ≤ a.toNat ∧ a.toNat ≤ 0x00FF) ∨ 0x0900 ≤ a.toNat → busRead a d = 0x00#8) ∧
  (∀ (s : State) (a : Addr) (v : Byte) (rest : List HostEvent),
    s.bus.pending = .access (.write a v) :: rest →
    a ≠ 0x0000#16 → a ≠ 0x0004#16 → a ≠ 0x0006#16 → a ≠ 0x0008#16 → a ≠ 0x000B#16 →
    ¬ (0x001C ≤ a.toNat ∧ a.toNat ≤ 0x001F) →
    step s = .next { s with bus := { s.bus with pending := rest } }) ∧
  (∀ (s : State) (x : Access) (rest : List HostEvent), s.bus.pending = .access x :: rest →
    ∃ t, step s = .next t)

/-- R39 and R56: in every state that meets the invariant, the length registers give the buffers' lengths, the three
10-bit lengths as `{_H[1:0], _L}` with bits 7:2 of `_H` zero. -/
def Obligations.LengthRegistersGiveTheLengths : Prop :=
  ∀ s : State, s.Inv →
    (busRead 0x0005#16 s.sfc).toNat = s.sfc.tag.length ∧ (busRead 0x0007#16 s.sfc).toNat = s.sfc.body.length ∧
    (busRead 0x0018#16 s.sfc).toNat = s.sfc.data.length ∧ (busRead 0x000C#16 s.sfc).toNat = s.sfc.hexb.length ∧
    ((busRead 0x000A#16 s.sfc).extractLsb' 0 2 ++ busRead 0x0009#16 s.sfc).toNat = s.sfc.rx.length ∧
    ((busRead 0x000F#16 s.sfc).extractLsb' 0 2 ++ busRead 0x000E#16 s.sfc).toNat = s.sfc.tx.length ∧
    ((busRead 0x001A#16 s.sfc).extractLsb' 0 2 ++ busRead 0x0019#16 s.sfc).toNat = s.sfc.slen ∧
    (busRead 0x000A#16 s.sfc).extractLsb' 2 6 = 0#6 ∧ (busRead 0x000F#16 s.sfc).extractLsb' 2 6 = 0#6 ∧
    (busRead 0x001A#16 s.sfc).extractLsb' 2 6 = 0#6

/-- R131: a write at 0x001C + i replaces bits 31-8i : 24-8i of FLT and nothing else, RES included; a read there gives
those bits. -/
def Obligations.FltBytesAreWrittenIndependently : Prop :=
  (∀ (d : Sfc) (i : Fin 4), busRead (BitVec.ofNat 16 (0x001C + i.val)) d = d.flt.extractLsb' (24 - 8 * i.val) 8) ∧
  (∀ (s : State) (i : Fin 4) (v : Byte), ∃ w : Word32,
    busWrite (BitVec.ofNat 16 (0x001C + i.val)) v s = .next { s with sfc := { s.sfc with flt := w } } ∧
    w.extractLsb' (24 - 8 * i.val) 8 = v ∧
    ∀ k : Nat, k < 24 - 8 * i.val ∨ 32 - 8 * i.val ≤ k → w.getLsbD k = s.sfc.flt.getLsbD k)

/-- 30_encoding.md section 4, 20_memory.md section 2: the host's `FLT w` form leaves FLT = w and changes nothing else
in the SFC, whatever FLT held. -/
def Obligations.FltFormLoadsTheWholeWord : Prop :=
  ∀ (s : State) (w : Word32),
    runEvents ((expand (.flt w)).map .access) s =
      .next { s with sfc := { s.sfc with flt := w }, bus := { s.bus with pending := [] } }

/-! ## Ports -/

/-- R90: a TAG_IN write appends and keeps the last 8; it changes nothing else, RES included; after 8 or more writes
TAG is the last 8 bytes written; after fewer from an empty TAG it is those, and PACK fails. -/
def Obligations.TagPortKeepsTheLastEight : Prop :=
  (∀ (s : State) (v : Byte),
    busWrite 0x0004#16 v s =
      .next { s with sfc := { s.sfc with tag := (s.sfc.tag ++ [v]).drop (s.sfc.tag.length + 1 - 8) } }) ∧
  (∀ (s : State) (l : List Byte), 8 ≤ l.length →
    runEvents (l.map (busWriteEvent 0x0004#16)) s =
      .next { s with
        sfc := { s.sfc with tag := l.drop (l.length - 8) }, bus := { s.bus with pending := [] } }) ∧
  (∀ (s : State) (l : List Byte), s.sfc.tag = [] → l.length < 8 →
    runEvents (l.map (busWriteEvent 0x0004#16) ++ [cmdWrite 0x01#8]) s =
      .next { s with sfc := { s.sfc with tag := l, res := 0x02#8 }, bus := { s.bus with pending := [] } })

/-- R110: a BODY_IN write appends while BODY has room, else drops the byte and sets BODY_OVF, and changes nothing
else; a run of writes fills BODY in order up to BODY_MAX and flags the rest; CSUM and FENC then fail; and every bus access but the commands
CLR_BODY and SRST leaves a set BODY_OVF set. -/
def Obligations.BodyPortAppendsUntilFull : Prop :=
  (∀ (s : State) (v : Byte),
    (s.sfc.body.length < s.cfg.bodyMax →
      busWrite 0x0006#16 v s = .next { s with sfc := { s.sfc with body := s.sfc.body ++ [v] } }) ∧
    (s.cfg.bodyMax ≤ s.sfc.body.length →
      busWrite 0x0006#16 v s = .next { s with sfc := { s.sfc with bodyOvf := true } })) ∧
  (∀ (s : State) (l : List Byte), s.sfc.body.length ≤ s.cfg.bodyMax →
    runEvents (l.map (busWriteEvent 0x0006#16)) s =
      .next { s with
        sfc := { s.sfc with
          body := s.sfc.body ++ l.take (s.cfg.bodyMax - s.sfc.body.length)
          bodyOvf := s.sfc.bodyOvf || decide (s.cfg.bodyMax < s.sfc.body.length + l.length) }
        bus := { s.bus with pending := [] } }) ∧
  (∀ s : State, s.sfc.bodyOvf = true →
    exec .csum s = .next { s with sfc := { s.sfc with res := 0x03#8 } } ∧
    exec .fenc s = .next { s with sfc := { s.sfc with res := 0x03#8 } }) ∧
  (∀ (s t : State) (x : Access) (rest : List HostEvent), s.sfc.bodyOvf = true →
    s.bus.pending = .access x :: rest → x ≠ .write 0x0000#16 0x09#8 → x ≠ .write 0x0000#16 0x0F#8 →
    step s = .next t → t.sfc.bodyOvf = true)

/-- R111: an RX_IN write appends while RX has room, 0xFF like any byte, else drops the byte and sets RX_OVF, and
changes nothing else; a run of writes fills RX in order up to RX_MAX and flags the rest. -/
def Obligations.RxPortAppendsUntilFull : Prop :=
  (∀ (s : State) (v : Byte),
    (s.sfc.rx.length < s.cfg.rxMax →
      busWrite 0x0008#16 v s = .next { s with sfc := { s.sfc with rx := s.sfc.rx ++ [v] } }) ∧
    (s.cfg.rxMax ≤ s.sfc.rx.length →
      busWrite 0x0008#16 v s = .next { s with sfc := { s.sfc with rxOvf := true } })) ∧
  (∀ (s : State) (l : List Byte), s.sfc.rx.length ≤ s.cfg.rxMax →
    runEvents (l.map (busWriteEvent 0x0008#16)) s =
      .next { s with
        sfc := { s.sfc with
          rx := s.sfc.rx ++ l.take (s.cfg.rxMax - s.sfc.rx.length)
          rxOvf := s.sfc.rxOvf || decide (s.cfg.rxMax < s.sfc.rx.length + l.length) }
        bus := { s.bus with pending := [] } }) ∧
  (∀ s t : State, exec .fdec s = .next t → t.sfc.rx = s.sfc.rx)

/-- R132: a HEX_IN write appends any byte while HEXB holds fewer than 8, else drops it and sets HEX_OVF, and changes
nothing else; H2F then fails with E_HEX_OVF. -/
def Obligations.HexPortAppendsUpToEight : Prop :=
  (∀ (s : State) (v : Byte),
    (s.sfc.hexb.length < 8 →
      busWrite 0x000B#16 v s = .next { s with sfc := { s.sfc with hexb := s.sfc.hexb ++ [v] } }) ∧
    (8 ≤ s.sfc.hexb.length →
      busWrite 0x000B#16 v s = .next { s with sfc := { s.sfc with hexOvf := true } })) ∧
  (∀ s : State, s.sfc.hexOvf = true → exec .h2f s = .next { s with sfc := { s.sfc with res := 0x07#8 } })

/-! ## Control commands and reset -/

/-- R150: NOP sets RES to OK and has no other effect. -/
def Obligations.NopOnlySetsResOk : Prop :=
  ∀ s : State, exec .nop s = .next { s with sfc := { s.sfc with res := 0x00#8 } }

/-- R152: a reserved OP sets RES to E_BADCMD and changes nothing else. -/
def Obligations.BadCommandOnlySetsRes : Prop :=
  ∀ (s : State) (op : Byte), (Instr.badcmd op).WellFormed →
    exec (.badcmd op) s = .next { s with sfc := { s.sfc with res := 0x01#8 } }

/-- R151 and R180: SRST and power-on reset both leave exactly the reset tuple and keep the parameters; afterwards
every address reads 0x00. -/
def Obligations.BothResetsLeaveTheResetTuple : Prop :=
  ∃ z : Sfc,
    (z.tag = [] ∧ z.paddr = #v[0, 0, 0, 0, 0, 0] ∧ z.body = [] ∧ z.csum = 0x00#8 ∧ z.tx = [] ∧ z.rx = [] ∧
      z.slen = 0 ∧ z.decDelim = 0x00#8 ∧ z.decAddr = #v[0, 0, 0, 0, 0] ∧ z.decCmd = 0x00#8 ∧
      z.decBcnt = 0x00#8 ∧ z.data = [] ∧ z.flt = 0x00000000#32 ∧ z.hexb = [] ∧
      z.hexo = #v[0, 0, 0, 0, 0, 0, 0, 0] ∧ z.res = 0x00#8 ∧ z.bodyOvf = false ∧ z.rxOvf = false ∧
      z.hexOvf = false) ∧
    (∀ s : State, exec .srst s = .next { s with sfc := z }) ∧
    (∀ (s : State) (rest : List HostEvent), s.bus.pending = .powerOn :: rest →
      step s = .next { s with sfc := z, bus := { s.bus with pending := rest } }) ∧
    State.reset.sfc = z ∧
    (∀ a : Addr, busRead a z = 0x00#8)

/-! ## Packed ASCII -/

/-- R91: PACK fails with E_TAG_SHORT and changes only RES unless TAG holds 8 bytes; then PADDR is the regrouped
symbols, RES is OK and nothing else changes. -/
def Obligations.PackRegroupsTheSymbols : Prop :=
  (∀ s : State, s.sfc.tag.length ≠ 8 →
    exec .pack s = .next { s with sfc := { s.sfc with res := 0x02#8 } }) ∧
  (∀ (s : State) (c0 c1 c2 c3 c4 c5 c6 c7 : Byte), s.sfc.tag = [c0, c1, c2, c3, c4, c5, c6, c7] →
    let y := fun c : Byte => c.extractLsb' 0 6
    exec .pack s = .next { s with
      sfc := { s.sfc with
        paddr := #v[(y c0 ++ (y c1).extractLsb' 4 2 : BitVec 8),
          ((y c1).extractLsb' 0 4 ++ (y c2).extractLsb' 2 4 : BitVec 8),
          ((y c2).extractLsb' 0 2 ++ y c3 : BitVec 8),
          (y c4 ++ (y c5).extractLsb' 4 2 : BitVec 8),
          ((y c5).extractLsb' 0 4 ++ (y c6).extractLsb' 2 4 : BitVec 8),
          ((y c6).extractLsb' 0 2 ++ y c7 : BitVec 8)]
        res := 0x00#8 } }) ∧
  (∀ c : Byte, (c.extractLsb' 0 6).toNat = c.toNat % 128 % 64)

/-- R59: the six bytes of PADDR in order are the eight symbols in order, most significant bit first. -/
def Obligations.PackedStreamIsMostSignificantFirst : Prop :=
  ∀ c0 c1 c2 c3 c4 c5 c6 c7 : Byte,
    let p := packTag [c0, c1, c2, c3, c4, c5, c6, c7]
    let y := fun c : Byte => c.extractLsb' 0 6
    (p[0] ++ p[1] ++ p[2] ++ p[3] ++ p[4] ++ p[5] : BitVec 48) =
      (y c0 ++ y c1 ++ y c2 ++ y c3 ++ y c4 ++ y c5 ++ y c6 ++ y c7 : BitVec 48)

/-- 40_packed_ascii.md R91's corner cases: two tags of 8 bytes pack equally exactly when each pair of characters
agrees in its low six bits, so bits 7:6 are ignored and nothing else is lost. -/
def Obligations.TagsPackEquallyWhenSymbolsAgree : Prop :=
  ∀ t u : List Byte, t.length = 8 → u.length = 8 →
    (packTag t = packTag u ↔ t.map (fun c => c.toNat % 64) = u.map (fun c => c.toNat % 64))

/-- R92, R118, R119, R135: the four clears empty their buffer, clear its overflow flag, set RES to OK and change
nothing else. -/
def Obligations.ClearCommandsEmptyOnlyTheirBuffer : Prop :=
  ∀ s : State,
    exec .clrTag s = .next { s with sfc := { s.sfc with tag := [], res := 0x00#8 } } ∧
    exec .clrBody s = .next { s with sfc := { s.sfc with body := [], bodyOvf := false, res := 0x00#8 } } ∧
    exec .clrRx s = .next { s with sfc := { s.sfc with rx := [], rxOvf := false, res := 0x00#8 } } ∧
    exec .clrHex s = .next { s with sfc := { s.sfc with hexb := [], hexOvf := false, res := 0x00#8 } }

/-! ## Checksum and frame -/

/-- R100: the leading run of 0xFF, and only it, is skipped; the rest is XORed from 0x00; so the empty list and a list
of only 0xFF give 0x00. -/
def Obligations.ChecksumSkipsOnlyTheLeadingSync : Prop :=
  (∀ (n : Nat) (b : Byte) (s : List Byte), b ≠ 0xFF#8 →
    crc (List.replicate n 0xFF#8 ++ b :: s) = (b :: s).foldr (fun x y => x ^^^ y) 0x00#8) ∧
  (∀ n : Nat, crc (List.replicate n 0xFF#8) = 0x00#8)

/-- R102: the checksum laws: prefix skip (and so over a frame without its last two bytes), self-cancellation, and
append linearity with its exception. -/
def Obligations.ChecksumLaws : Prop :=
  (∀ (n : Nat) (s : List Byte), crc (List.replicate n 0xFF#8 ++ s) = crc s) ∧
  (∀ s t : State, s.sfc.bodyOvf = false → exec .fenc s = .next t →
    crc (t.sfc.tx.take (t.sfc.tx.length - 2)) = crc t.sfc.body) ∧
  (∀ b : List Byte,
    ((b ++ [crc b]).dropWhile (fun x => x == 0xFF#8)).foldr (fun x y => x ^^^ y) 0x00#8 = 0x00#8) ∧
  (∀ (s : List Byte) (b : Byte), ¬ ((∀ x ∈ s, x = 0xFF#8) ∧ b = 0xFF#8) → crc (s ++ [b]) = crc s ^^^ b) ∧
  (∀ s : List Byte, (∀ x ∈ s, x = 0xFF#8) → crc s = 0x00#8 ∧ crc (s ++ [0xFF#8]) = 0x00#8)

/-- R101: CSUM fails with E_BODY_OVF and changes only RES when BODY_OVF is set; else CSUM is the checksum of BODY,
RES is OK and nothing else changes. -/
def Obligations.CsumChecksTheBody : Prop :=
  ∀ s : State,
    (s.sfc.bodyOvf = true → exec .csum s = .next { s with sfc := { s.sfc with res := 0x03#8 } }) ∧
    (s.sfc.bodyOvf = false →
      exec .csum s = .next { s with sfc := { s.sfc with csum := crc s.sfc.body, res := 0x00#8 } })

/-- R112: FENC fails with E_BODY_OVF and changes only RES when BODY_OVF is set; else CSUM is the checksum of BODY, TX
is preamble, BODY unaltered, checksum and terminator, RES is OK and nothing else changes. -/
def Obligations.FencBuildsTheFrame : Prop :=
  (∀ s : State,
    (s.sfc.bodyOvf = true → exec .fenc s = .next { s with sfc := { s.sfc with res := 0x03#8 } }) ∧
    (s.sfc.bodyOvf = false →
      exec .fenc s = .next { s with
        sfc := { s.sfc with
          csum := crc s.sfc.body
          tx := [0xFF#8, 0xFF#8, 0xFF#8, 0xFF#8] ++ s.sfc.body ++ [crc s.sfc.body] ++ [0x00#8]
          res := 0x00#8 } })) ∧
  (∀ s t : State, s.Inv → s.sfc.bodyOvf = false → exec .fenc s = .next t →
    t.sfc.tx.length = s.sfc.body.length + 6 ∧ 6 ≤ t.sfc.tx.length ∧ t.sfc.tx.length ≤ s.cfg.bodyMax + 6)

/-- 20_memory.md sections 1 and 2, 42_frame.md section 2: after a successful FENC the host reads the whole frame in
transmission order at the TX window, and TX_LEN gives its length. -/
def Obligations.TransmitWindowShowsTheFrame : Prop :=
  ∀ s t : State, s.Inv → s.sfc.bodyOvf = false → exec .fenc s = .next t →
    (∀ i : Nat, i < 4 → busRead (BitVec.ofNat 16 (0x0200 + i)) t.sfc = 0xFF#8) ∧
    (∀ (i : Nat) (b : Byte), s.sfc.body[i]? = some b → busRead (BitVec.ofNat 16 (0x0204 + i)) t.sfc = b) ∧
    busRead (BitVec.ofNat 16 (0x0204 + s.sfc.body.length)) t.sfc = crc s.sfc.body ∧
    busRead 0x000D#16 t.sfc = crc s.sfc.body ∧
    busRead (BitVec.ofNat 16 (0x0205 + s.sfc.body.length)) t.sfc = 0x00#8 ∧
    ((busRead 0x000F#16 t.sfc).extractLsb' 0 2 ++ busRead 0x000E#16 t.sfc).toNat = s.sfc.body.length + 6

/-- R113: strip removes every 0xFF wherever it stands and keeps the order of the rest. -/
def Obligations.StripRemovesEverySync : Prop :=
  strip [] = [] ∧ (∀ r : List Byte, strip (0xFF#8 :: r) = strip r) ∧
  (∀ (b : Byte) (r : List Byte), b ≠ 0xFF#8 → strip (b :: r) = b :: strip r)

/-- R114: FDEC's four outcomes, each with every write it makes and nothing else. -/
def Obligations.FdecParsesTheStrippedResponse : Prop :=
  (∀ s : State, s.sfc.rxOvf = true →
    exec .fdec s = .next { s with sfc := { s.sfc with res := 0x04#8 } }) ∧
  (∀ s : State, s.sfc.rxOvf = false → (strip s.sfc.rx).length < 8 →
    exec .fdec s = .next { s with
      sfc := { s.sfc with
        slen := (strip s.sfc.rx).length, decDelim := 0x00#8, decAddr := #v[0, 0, 0, 0, 0], decCmd := 0x00#8
        decBcnt := 0x00#8, data := [], res := 0x05#8 } }) ∧
  (∀ (s : State) (d a0 a1 a2 a3 a4 c n : Byte) (rest : List Byte), s.sfc.rxOvf = false →
    strip s.sfc.rx = d :: a0 :: a1 :: a2 :: a3 :: a4 :: c :: n :: rest →
    (rest.length < n.toNat →
      exec .fdec s = .next { s with
        sfc := { s.sfc with
          slen := 8 + rest.length, decDelim := d, decAddr := #v[a0, a1, a2, a3, a4], decCmd := c, decBcnt := n
          data := [], res := 0x06#8 } }) ∧
    (n.toNat ≤ rest.length →
      exec .fdec s = .next { s with
        sfc := { s.sfc with
          slen := 8 + rest.length, decDelim := d, decAddr := #v[a0, a1, a2, a3, a4], decCmd := c, decBcnt := n
          data := rest.take n.toNat, res := 0x00#8 } }))

/-- 42_frame.md section 3 (R115, R116): what FDEC leaves depends on RX only through its non-sync bytes, so a 0xFF
anywhere in the response, header and data included, changes nothing FDEC computes. -/
def Obligations.FdecSeesOnlyNonSyncBytes : Prop :=
  ∀ (s t : State) (r : List Byte), strip r = strip s.sfc.rx → exec .fdec s = .next t →
    exec .fdec { s with sfc := { s.sfc with rx := r } } = .next { t with sfc := { t.sfc with rx := r } }

/-- 10_state.md section 4 (R33), 60_exceptions.md section 1: after a successful FDEC DATA is as long as DEC_BCNT
says, and after a failed one that got past its overflow check DATA is empty. -/
def Obligations.DataLengthFollowsTheByteCount : Prop :=
  ∀ s t : State, s.sfc.rxOvf = false → exec .fdec s = .next t →
    (t.sfc.res = 0x00#8 → t.sfc.data.length = t.sfc.decBcnt.toNat) ∧ (t.sfc.res ≠ 0x00#8 → t.sfc.data = [])

/-- 42_frame.md sections 2 and 3 together: a frame FENC builds, received back, decodes to the header and data of the
body it was built from, when that body holds no 0xFF and its own byte count gives the length of its data. -/
def Obligations.FrameReceivedBackDecodesToItsBody : Prop :=
  ∀ (s : State) (d a0 a1 a2 a3 a4 c n : Byte) (p : List Byte),
    let body := d :: a0 :: a1 :: a2 :: a3 :: a4 :: c :: n :: p
    0xFF#8 ∉ body → p.length = n.toNat → s.sfc.rx = frameOf body → s.sfc.rxOvf = false →
    ∃ t, exec .fdec s = .next t ∧ t.sfc.res = 0x00#8 ∧ t.sfc.decDelim = d ∧
      t.sfc.decAddr = #v[a0, a1, a2, a3, a4] ∧ t.sfc.decCmd = c ∧ t.sfc.decBcnt = n ∧ t.sfc.data = p

/-! ## Hex text -/

/-- R12: hexval accepts exactly the digits and both cases of the letters, hexchar writes letters in HEX_CASE. -/
def Obligations.HexDigitsAreAscii : Prop :=
  (∀ k : Nat, k < 10 → hexval (BitVec.ofNat 8 (0x30 + k)) = some (BitVec.ofNat 4 k)) ∧
  (∀ k : Nat, k < 6 → hexval (BitVec.ofNat 8 (0x41 + k)) = some (BitVec.ofNat 4 (10 + k)) ∧
    hexval (BitVec.ofNat 8 (0x61 + k)) = some (BitVec.ofNat 4 (10 + k))) ∧
  (∀ c : Byte, ¬ (0x30 ≤ c.toNat ∧ c.toNat ≤ 0x39) → ¬ (0x41 ≤ c.toNat ∧ c.toNat ≤ 0x46) →
    ¬ (0x61 ≤ c.toNat ∧ c.toNat ≤ 0x66) → hexval c = none) ∧
  (∀ (hc : HexCase) (k : Nat), k < 10 → hexchar hc (BitVec.ofNat 4 k) = BitVec.ofNat 8 (0x30 + k)) ∧
  (∀ k : Nat, k < 6 → hexchar .upper (BitVec.ofNat 4 (10 + k)) = BitVec.ofNat 8 (0x41 + k) ∧
    hexchar .lower (BitVec.ofNat 4 (10 + k)) = BitVec.ofNat 8 (0x61 + k))

/-- R133: F2H writes the eight nibbles of FLT, most significant first, as hex characters in HEX_CASE, RES is OK and
nothing else changes. -/
def Obligations.F2hWritesTheHexText : Prop :=
  ∀ s : State,
    let h := fun k => hexchar s.cfg.hexCase (s.sfc.flt.extractLsb' k 4)
    exec .f2h s = .next { s with
      sfc := { s.sfc with hexo := #v[h 28, h 24, h 20, h 16, h 12, h 8, h 4, h 0], res := 0x00#8 } }

/-- R134: H2F fails with E_HEX_OVF, else with E_HEX_CHAR at a byte that is no hex digit, changing only RES; else FLT
is the padded string's digits, first digit in bits 31:28, RES is OK and nothing else changes. -/
def Obligations.H2fReadsThePaddedHexText : Prop :=
  (∀ s : State, s.sfc.hexOvf = true →
    exec .h2f s = .next { s with sfc := { s.sfc with res := 0x07#8 } }) ∧
  (∀ s : State, s.sfc.hexOvf = false → (∃ c ∈ s.sfc.hexb, hexval c = none) →
    exec .h2f s = .next { s with sfc := { s.sfc with res := 0x08#8 } }) ∧
  (∀ (s : State) (n0 n1 n2 n3 n4 n5 n6 n7 : Nibble), s.sfc.hexOvf = false →
    (s.sfc.hexb ++ List.replicate (8 - s.sfc.hexb.length) 0x30#8).map hexval =
      [some n0, some n1, some n2, some n3, some n4, some n5, some n6, some n7] →
    exec .h2f s = .next { s with
      sfc := { s.sfc with flt := (n0 ++ n1 ++ n2 ++ n3 ++ n4 ++ n5 ++ n6 ++ n7 : BitVec 32), res := 0x00#8 } })

/-- R136: for every 32-bit pattern, every letter case and every state: F2H, CLR_HEX, the eight HEXO characters to
HEX_IN and H2F give the same FLT again, with RES OK; and so they do when the host writes any other word over FLT just
before the H2F, so that the pattern comes back from the text alone. -/
def Obligations.FloatHexRoundTripIsExact : Prop :=
  ∀ (s : State) (w : Word32), ∃ t u v : State,
    runEvents [cmdWrite 0x05#8, cmdWrite 0x0B#8] s = .next t ∧ t.sfc.flt = s.sfc.flt ∧
    runEvents (t.sfc.hexo.toList.map (busWriteEvent 0x000B#16) ++ [cmdWrite 0x06#8]) t = .next u ∧
    u.sfc.flt = s.sfc.flt ∧ u.sfc.res = 0x00#8 ∧ u.sfc.hexb = t.sfc.hexo.toList ∧
    runEvents (t.sfc.hexo.toList.map (busWriteEvent 0x000B#16) ++ (expand (.flt w)).map .access ++
      [cmdWrite 0x06#8]) t = .next v ∧
    v.sfc.flt = s.sfc.flt ∧ v.sfc.res = 0x00#8 ∧ v.sfc.hexb = t.sfc.hexo.toList

/-! ## Result codes -/

/-- R160: the values RES takes, the commands that leave each, its cause, and what the invariant's states record with
it. -/
def Obligations.ResultCodesHaveTheirCause : Prop :=
  ∀ (i : Instr) (s t : State), s.Inv → exec i s = .next t →
    (t.sfc.res = 0x00#8 ∧ ∀ op, i ≠ .badcmd op) ∨
    (t.sfc.res = 0x01#8 ∧ ∃ op, i = .badcmd op) ∨
    (t.sfc.res = 0x02#8 ∧ i = .pack ∧ s.sfc.tag.length < 8) ∨
    (t.sfc.res = 0x03#8 ∧ (i = .csum ∨ i = .fenc) ∧ s.sfc.bodyOvf = true ∧ t.sfc.body.length = t.cfg.bodyMax) ∨
    (t.sfc.res = 0x04#8 ∧ i = .fdec ∧ s.sfc.rxOvf = true ∧ t.sfc.rx.length = t.cfg.rxMax) ∨
    (t.sfc.res = 0x05#8 ∧ i = .fdec ∧ (strip s.sfc.rx).length < 8 ∧ t.sfc.slen = (strip s.sfc.rx).length) ∨
    (t.sfc.res = 0x06#8 ∧ i = .fdec ∧ t.sfc.slen = (strip s.sfc.rx).length ∧ t.sfc.slen < 8 + t.sfc.decBcnt.toNat ∧
      t.sfc.decDelim :: t.sfc.decAddr.toList ++ [t.sfc.decCmd, t.sfc.decBcnt] = (strip s.sfc.rx).take 8) ∨
    (t.sfc.res = 0x07#8 ∧ i = .h2f ∧ s.sfc.hexOvf = true ∧ t.sfc.hexb.length = 8) ∨
    (t.sfc.res = 0x08#8 ∧ i = .h2f ∧ ∃ c ∈ t.sfc.hexb, hexval c = none)

/-- R162: each command reports one code, the first of its failure conditions in the listed order. -/
def Obligations.FirstFailureInOrderIsReported : Prop :=
  ∀ s : State,
    (∃ t, exec .pack s = .next t ∧ t.sfc.res = if s.sfc.tag.length ≠ 8 then 0x02#8 else 0x00#8) ∧
    (∃ t, exec .csum s = .next t ∧ t.sfc.res = if s.sfc.bodyOvf then 0x03#8 else 0x00#8) ∧
    (∃ t, exec .fenc s = .next t ∧ t.sfc.res = if s.sfc.bodyOvf then 0x03#8 else 0x00#8) ∧
    (∃ t, exec .fdec s = .next t ∧ t.sfc.res =
      if s.sfc.rxOvf then 0x04#8
      else if (strip s.sfc.rx).length < 8 then 0x05#8
      else if (strip s.sfc.rx).length < 8 + ((strip s.sfc.rx).getD 7 0x00#8).toNat then 0x06#8
      else 0x00#8) ∧
    (∃ t, exec .h2f s = .next t ∧ t.sfc.res =
      if s.sfc.hexOvf then 0x07#8
      else if s.sfc.hexb.any (fun c => (hexval c).isNone) then 0x08#8
      else 0x00#8) ∧
    (∀ op : Byte, ReservedOp op → ∃ t, exec (decodeOp op) s = .next t ∧ t.sfc.res = 0x01#8)

/-- R163: what a failing command writes, and nothing else. -/
def Obligations.FailuresWriteExactlyTheListedState : Prop :=
  ∀ (i : Instr) (s t : State), exec i s = .next t →
    (t.sfc.res ∈ [0x01#8, 0x02#8, 0x03#8, 0x04#8, 0x07#8, 0x08#8] →
      t = { s with sfc := { s.sfc with res := t.sfc.res } }) ∧
    (t.sfc.res = 0x05#8 →
      t = { s with
        sfc := { s.sfc with
          slen := (strip s.sfc.rx).length, decDelim := 0x00#8, decAddr := #v[0, 0, 0, 0, 0], decCmd := 0x00#8
          decBcnt := 0x00#8, data := [], res := 0x05#8 } }) ∧
    (t.sfc.res = 0x06#8 →
      ∃ (d a0 a1 a2 a3 a4 c n : Byte) (rest : List Byte),
        strip s.sfc.rx = d :: a0 :: a1 :: a2 :: a3 :: a4 :: c :: n :: rest ∧
        t = { s with
          sfc := { s.sfc with
            slen := (strip s.sfc.rx).length, decDelim := d, decAddr := #v[a0, a1, a2, a3, a4], decCmd := c
            decBcnt := n, data := [], res := 0x06#8 } })

/-! ## The whole machine -/

/-- The tuple's bounds and the contents the rules promise hold right after reset, for every legal instance. -/
def Obligations.ResetMeetsTheInvariant : Prop :=
  (∀ c : Config, c.Legal → (State.resetWith c).Inv) ∧ State.reset.Inv

/-- 10_state.md R24 and R33, 42_frame.md R112 and R116, 60_exceptions.md R160: whatever event the host makes, from
every state that meets the invariant the step leads to a state that meets it. -/
def Obligations.EveryStepKeepsTheInvariant : Prop :=
  ∀ s t : State, s.Inv → step s = .next t → t.Inv

/-- 60_exceptions.md section 2, 00_scope.md section 3, 20_memory.md section 4: every step from every state answers a
next state (no fault, no refusal), keeps the parameters, takes exactly the oldest event, and answers one byte for a
read and none otherwise. -/
def Obligations.EveryStepServesOneEventAndGoesOn : Prop :=
  ∀ s : State, ∃ t : State, step s = .next t ∧ t.cfg = s.cfg ∧ t.bus.pending = s.bus.pending.tail ∧
    t.bus.replies = s.bus.replies ++
      match s.bus.pending with
      | .access (.read a) :: _ => [busRead a s.sfc]
      | .access (.write _ _) :: _ | .powerOn :: _ | [] => []

/-- 10_state.md section 1 (R20; R180 for power-on, log 5): only a bus write or a power-on reset changes the SFC; with
nothing pending nothing changes at all (log 4). -/
def Obligations.OnlyHostWritesChangeTheSfc : Prop :=
  (∀ s t : State, step s = .next t → t.sfc ≠ s.sfc →
    (∃ a v rest, s.bus.pending = .access (.write a v) :: rest) ∨ ∃ rest, s.bus.pending = .powerOn :: rest) ∧
  (∀ s : State, s.bus.pending = [] → step s = .next s)

/-- R65: the host's events take effect one at a time, in order: whatever comes first is done before what follows
starts, and what follows sees its state, and nothing that follows changes what came first. -/
def Obligations.EventsTakeEffectInOrder : Prop :=
  (∀ (s : State) (xs ys : List HostEvent), ∃ t u : State,
    runEvents xs s = .next t ∧ runEvents ys t = .next u ∧ runEvents (xs ++ ys) s = .next u ∧
    (∃ answers : List Byte, u.bus.replies = t.bus.replies ++ answers)) ∧
  (∀ (s : State) (e : HostEvent) (rest : List HostEvent), s.bus.pending = e :: rest → ∃ t u : State,
    step s = .next t ∧ t.bus.pending = rest ∧ runEvents [e] s = .next u ∧ t.sfc = u.sfc ∧
    t.bus.replies = u.bus.replies)

/-- 44_control.md (R153): only a command, or a power-on reset, changes RES. -/
def Obligations.OnlyCommandsChangeRes : Prop :=
  ∀ s t : State, step s = .next t → t.sfc.res ≠ s.sfc.res →
    (∃ op rest, s.bus.pending = .access (.write 0x0000#16 op) :: rest) ∨ ∃ rest, s.bus.pending = .powerOn :: rest

/-- 10_state.md section 5 (R37), and for power-on reset 70_reset_and_hazards.md section 1 (R180): a port over a full
buffer sets its flag and a clear command clears its buffer's flag; nothing else sets one; nothing but its buffer's
clear command, SRST or power-on reset clears one, where power-on reset, which R37 does not list, is the model's reading
of R180 (DEDUCED, log 5); the three flags read as bits 0, 1, 2 of FLAGS; a set flag makes the commands that read its
buffer fail. -/
def Obligations.OverflowFlagsAreSetAndClearedOnlyAsListed : Prop :=
  (∀ (s : State) (v : Byte),
    (s.cfg.bodyMax ≤ s.sfc.body.length → ∃ t, busWrite 0x0006#16 v s = .next t ∧ t.sfc.bodyOvf = true) ∧
    (s.cfg.rxMax ≤ s.sfc.rx.length → ∃ t, busWrite 0x0008#16 v s = .next t ∧ t.sfc.rxOvf = true) ∧
    (8 ≤ s.sfc.hexb.length → ∃ t, busWrite 0x000B#16 v s = .next t ∧ t.sfc.hexOvf = true) ∧
    (∃ t, exec .clrBody s = .next t ∧ t.sfc.bodyOvf = false) ∧
    (∃ t, exec .clrRx s = .next t ∧ t.sfc.rxOvf = false) ∧
    (∃ t, exec .clrHex s = .next t ∧ t.sfc.hexOvf = false) ∧
    (∃ t, exec .srst s = .next t ∧ t.sfc.bodyOvf = false ∧ t.sfc.rxOvf = false ∧ t.sfc.hexOvf = false)) ∧
  (∀ s t : State, step s = .next t →
    (s.sfc.bodyOvf = false → t.sfc.bodyOvf = true →
      s.cfg.bodyMax ≤ s.sfc.body.length ∧ ∃ v rest, s.bus.pending = .access (.write 0x0006#16 v) :: rest) ∧
    (s.sfc.rxOvf = false → t.sfc.rxOvf = true →
      s.cfg.rxMax ≤ s.sfc.rx.length ∧ ∃ v rest, s.bus.pending = .access (.write 0x0008#16 v) :: rest) ∧
    (s.sfc.hexOvf = false → t.sfc.hexOvf = true →
      8 ≤ s.sfc.hexb.length ∧ ∃ v rest, s.bus.pending = .access (.write 0x000B#16 v) :: rest) ∧
    (s.sfc.bodyOvf = true → t.sfc.bodyOvf = false →
      ∃ e rest, s.bus.pending = e :: rest ∧ e ∈ [cmdWrite 0x09#8, cmdWrite 0x0F#8, .powerOn]) ∧
    (s.sfc.rxOvf = true → t.sfc.rxOvf = false →
      ∃ e rest, s.bus.pending = e :: rest ∧ e ∈ [cmdWrite 0x0A#8, cmdWrite 0x0F#8, .powerOn]) ∧
    (s.sfc.hexOvf = true → t.sfc.hexOvf = false →
      ∃ e rest, s.bus.pending = e :: rest ∧ e ∈ [cmdWrite 0x0B#8, cmdWrite 0x0F#8, .powerOn])) ∧
  (∀ d : Sfc,
    (busRead 0x0002#16 d).getLsbD 0 = d.bodyOvf ∧ (busRead 0x0002#16 d).getLsbD 1 = d.rxOvf ∧
    (busRead 0x0002#16 d).getLsbD 2 = d.hexOvf ∧ (busRead 0x0002#16 d).extractLsb' 3 5 = 0#5) ∧
  (∀ (i : Instr) (s : State),
    ((i = .csum ∨ i = .fenc) ∧ s.sfc.bodyOvf = true) ∨ (i = .fdec ∧ s.sfc.rxOvf = true) ∨
      (i = .h2f ∧ s.sfc.hexOvf = true) →
    ∃ t, exec i s = .next t ∧ t.sfc.res ≠ 0x00#8)

/-- R194: along any run of host events that neither clears nor resets, a set overflow flag stays set, the full buffer
keeps its bytes, and the commands that read it fail, changing nothing but RES; and no step clears a flag without
emptying its buffer. -/
def Obligations.OverflowIsStickyAlongEveryRun : Prop :=
  (∀ s t : State, step s = .next t →
    (s.sfc.bodyOvf = true → t.sfc.bodyOvf = false → t.sfc.body = []) ∧
    (s.sfc.rxOvf = true → t.sfc.rxOvf = false → t.sfc.rx = []) ∧
    (s.sfc.hexOvf = true → t.sfc.hexOvf = false → t.sfc.hexb = [])) ∧
  ∀ (s t : State) (evs : List HostEvent), s.Inv → runEvents evs s = .next t →
    cmdWrite 0x0F#8 ∉ evs → HostEvent.powerOn ∉ evs →
    (s.sfc.bodyOvf = true → cmdWrite 0x09#8 ∉ evs →
      t.sfc.bodyOvf = true ∧ t.sfc.body = s.sfc.body ∧
      exec .csum t = .next { t with sfc := { t.sfc with res := 0x03#8 } } ∧
      exec .fenc t = .next { t with sfc := { t.sfc with res := 0x03#8 } }) ∧
    (s.sfc.rxOvf = true → cmdWrite 0x0A#8 ∉ evs →
      t.sfc.rxOvf = true ∧ t.sfc.rx = s.sfc.rx ∧
      exec .fdec t = .next { t with sfc := { t.sfc with res := 0x04#8 } }) ∧
    (s.sfc.hexOvf = true → cmdWrite 0x0B#8 ∉ evs →
      t.sfc.hexOvf = true ∧ t.sfc.hexb = s.sfc.hexb ∧
      exec .h2f t = .next { t with sfc := { t.sfc with res := 0x07#8 } })

/-- R191: no change of an input updates a result: after a port write, an FLT write, a clear command or H2F's write of
FLT, PADDR, CSUM, TX, SLEN, the DEC_* fields, DATA and HEXO are what they were, and FLT is, but for writes to it. -/
def Obligations.ResultsAreSnapshots : Prop :=
  (∀ (s t : State) (a : Addr) (v : Byte), a ≠ 0x0000#16 → busWrite a v s = .next t →
    t.sfc.paddr = s.sfc.paddr ∧ t.sfc.csum = s.sfc.csum ∧ t.sfc.tx = s.sfc.tx ∧ t.sfc.slen = s.sfc.slen ∧
    t.sfc.decDelim = s.sfc.decDelim ∧ t.sfc.decAddr = s.sfc.decAddr ∧ t.sfc.decCmd = s.sfc.decCmd ∧
    t.sfc.decBcnt = s.sfc.decBcnt ∧ t.sfc.data = s.sfc.data ∧ t.sfc.hexo = s.sfc.hexo ∧
    (¬ (0x001C ≤ a.toNat ∧ a.toNat ≤ 0x001F) → t.sfc.flt = s.sfc.flt)) ∧
  (∀ (s t : State) (i : Instr), i ∈ [.clrTag, .clrBody, .clrRx, .clrHex, .h2f] → exec i s = .next t →
    t.sfc.paddr = s.sfc.paddr ∧ t.sfc.csum = s.sfc.csum ∧ t.sfc.tx = s.sfc.tx ∧ t.sfc.slen = s.sfc.slen ∧
    t.sfc.decDelim = s.sfc.decDelim ∧ t.sfc.decAddr = s.sfc.decAddr ∧ t.sfc.decCmd = s.sfc.decCmd ∧
    t.sfc.decBcnt = s.sfc.decBcnt ∧ t.sfc.data = s.sfc.data ∧ t.sfc.hexo = s.sfc.hexo ∧
    (i ≠ .h2f → t.sfc.flt = s.sfc.flt))

/-- 70_reset_and_hazards.md section 3 (R192), decision D33: a command changes an input buffer only to clear it: TAG by
CLR_TAG, BODY by CLR_BODY, RX by CLR_RX, HEXB by CLR_HEX, each also by SRST. -/
def Obligations.CommandsDoNotConsumeTheirInputs : Prop :=
  ∀ (i : Instr) (s t : State), exec i s = .next t →
    (t.sfc.tag ≠ s.sfc.tag → (i = .clrTag ∨ i = .srst) ∧ t.sfc.tag = []) ∧
    (t.sfc.body ≠ s.sfc.body → (i = .clrBody ∨ i = .srst) ∧ t.sfc.body = []) ∧
    (t.sfc.rx ≠ s.sfc.rx → (i = .clrRx ∨ i = .srst) ∧ t.sfc.rx = []) ∧
    (t.sfc.hexb ≠ s.sfc.hexb → (i = .clrHex ∨ i = .srst) ∧ t.sfc.hexb = [])

/-- 30_encoding.md section 1 (R71's column "state written"), seen from the bus: after a command every address outside
the registers of the state it writes reads as before. RES is at 0x0001. -/
def Obligations.CommandsLeaveOtherAddressesAsTheyWere : Prop :=
  ∀ (i : Instr) (s t : State) (a : Addr), exec i s = .next t → a ≠ 0x0001#16 →
    (match i with
      | .nop | .badcmd _ => True
      | .pack => ¬ (0x0020 ≤ a.toNat ∧ a.toNat ≤ 0x0025)
      | .csum => a ≠ 0x000D#16
      | .fenc => a ≠ 0x000D#16 ∧ a ≠ 0x000E#16 ∧ a ≠ 0x000F#16 ∧ ¬ (0x0200 ≤ a.toNat ∧ a.toNat ≤ 0x03FF)
      | .fdec => ¬ (0x0010 ≤ a.toNat ∧ a.toNat ≤ 0x001A) ∧ ¬ (0x0800 ≤ a.toNat ∧ a.toNat ≤ 0x08FF)
      | .f2h => ¬ (0x0038 ≤ a.toNat ∧ a.toNat ≤ 0x003F)
      | .h2f => ¬ (0x001C ≤ a.toNat ∧ a.toNat ≤ 0x001F)
      | .clrTag => a ≠ 0x0005#16 ∧ ¬ (0x0028 ≤ a.toNat ∧ a.toNat ≤ 0x002F)
      | .clrBody => a ≠ 0x0002#16 ∧ a ≠ 0x0007#16 ∧ ¬ (0x0100 ≤ a.toNat ∧ a.toNat ≤ 0x01FF)
      | .clrRx => a ≠ 0x0002#16 ∧ a ≠ 0x0009#16 ∧ a ≠ 0x000A#16 ∧ ¬ (0x0400 ≤ a.toNat ∧ a.toNat ≤ 0x07FF)
      | .clrHex => a ≠ 0x0002#16 ∧ a ≠ 0x000C#16 ∧ ¬ (0x0030 ≤ a.toNat ∧ a.toNat ≤ 0x0037)
      | .srst => False) →
    busRead a t.sfc = busRead a s.sfc

/-- 20_memory.md section 2 (R57), 70_reset_and_hazards.md section 2: bytes written to BODY_IN after CLR_BODY, or to
RX_IN after CLR_RX, are read back from the window in the order they were written. -/
def Obligations.WindowsShowTheBytesInWireOrder : Prop :=
  (∀ (s : State) (l : List Byte), s.cfg.Legal → l.length ≤ s.cfg.bodyMax → ∃ t,
    runEvents (cmdWrite 0x09#8 :: l.map (busWriteEvent 0x0006#16)) s = .next t ∧
    (busRead 0x0007#16 t.sfc).toNat = l.length ∧
    ∀ (i : Nat) (b : Byte), l[i]? = some b → busRead (BitVec.ofNat 16 (0x0100 + i)) t.sfc = b) ∧
  (∀ (s : State) (l : List Byte), s.cfg.Legal → l.length ≤ s.cfg.rxMax → ∃ t,
    runEvents (cmdWrite 0x0A#8 :: l.map (busWriteEvent 0x0008#16)) s = .next t ∧
    ((busRead 0x000A#16 t.sfc).extractLsb' 0 2 ++ busRead 0x0009#16 t.sfc).toNat = l.length ∧
    ∀ (i : Nat) (b : Byte), l[i]? = some b → busRead (BitVec.ofNat 16 (0x0400 + i)) t.sfc = b)

/-- 20_memory.md section 3 (R63): CMD_LATENCY cannot be observed: along any run, changing it changes nothing but
itself, every read answer included. -/
def Obligations.LatencyIsUnobservable : Prop :=
  ∀ (s t : State) (evs : List HostEvent) (n : Nat), runEvents evs s = .next t →
    runEvents evs { s with cfg := { s.cfg with cmdLatency := n } } =
      .next { t with cfg := { t.cfg with cmdLatency := n } }

/-- 60_exceptions.md section 3 (R165): the very next read of RES after a CMD write gives that command's code. -/
def Obligations.NextReadOfResGivesTheCommandsCode : Prop :=
  ∀ (s : State) (op : Byte), ∃ t : State, exec (decodeOp op) { s with bus := { s.bus with pending := [] } } = .next t ∧
    runEvents [cmdWrite op, busReadEvent 0x0001#16] s =
      .next { t with bus := { pending := [], replies := s.bus.replies ++ [t.sfc.res] } }
end

