-- ==== Sys2Proof/Laws/State.lean ====
section
/-!
SUPPORT. The small lemmas of the state's updates: one per field per update, each true by unfolding, so that no later
proof unfolds a record update.
-/

namespace Sys2Proof.Machine

@[simp] theorem State.withSfc_sfc (s : State) (d : Sfc) : (s.withSfc d).sfc = d := rfl
@[simp] theorem State.withSfc_cfg (s : State) (d : Sfc) : (s.withSfc d).cfg = s.cfg := rfl
@[simp] theorem State.withSfc_bus (s : State) (d : Sfc) : (s.withSfc d).bus = s.bus := rfl

@[simp] theorem State.withPending_sfc (s : State) (evs : List HostEvent) : (s.withPending evs).sfc = s.sfc := rfl
@[simp] theorem State.withPending_cfg (s : State) (evs : List HostEvent) : (s.withPending evs).cfg = s.cfg := rfl
@[simp] theorem State.withPending_pending (s : State) (evs : List HostEvent) :
    (s.withPending evs).bus.pending = evs := rfl
@[simp] theorem State.withPending_replies (s : State) (evs : List HostEvent) :
    (s.withPending evs).bus.replies = s.bus.replies := rfl

@[simp] theorem State.reply_sfc (s : State) (b : Byte) : (s.reply b).sfc = s.sfc := rfl
@[simp] theorem State.reply_cfg (s : State) (b : Byte) : (s.reply b).cfg = s.cfg := rfl
@[simp] theorem State.reply_pending (s : State) (b : Byte) : (s.reply b).bus.pending = s.bus.pending := rfl
@[simp] theorem State.reply_replies (s : State) (b : Byte) :
    (s.reply b).bus.replies = s.bus.replies ++ [b] := rfl

@[simp] theorem State.give_sfc (s : State) (evs : List HostEvent) : (s.give evs).sfc = s.sfc := rfl
@[simp] theorem State.give_cfg (s : State) (evs : List HostEvent) : (s.give evs).cfg = s.cfg := rfl
@[simp] theorem State.give_pending (s : State) (evs : List HostEvent) :
    (s.give evs).bus.pending = evs ++ s.bus.pending := rfl
@[simp] theorem State.give_replies (s : State) (evs : List HostEvent) :
    (s.give evs).bus.replies = s.bus.replies := rfl

@[simp] theorem State.resetWith_sfc (c : Config) : (State.resetWith c).sfc = Sfc.reset := rfl
@[simp] theorem State.resetWith_cfg (c : Config) : (State.resetWith c).cfg = c := rfl

@[simp] theorem powerOnReset_sfc (s : State) : (powerOnReset s).sfc = Sfc.reset := rfl
@[simp] theorem powerOnReset_cfg (s : State) : (powerOnReset s).cfg = s.cfg := rfl
@[simp] theorem powerOnReset_bus (s : State) : (powerOnReset s).bus = s.bus := rfl

/-- Two states are equal when their three parts are. -/
theorem State.eq_of_parts {s t : State} (hc : t.cfg = s.cfg) (hd : t.sfc = s.sfc) (hb : t.bus = s.bus) : t = s := by
  cases s; cases t; simp_all

end Sys2Proof.Machine
end

