-- ==== Sys2Proof/Laws/Ops.lean ====
section
/-!
SUPPORT. One lemma per shared operation, saying once all it does: how commands end, the ports, the register map's
reading and writing, and the codec's list functions.
-/

namespace Sys2Proof.Machine

/-! ## How a command ends -/

/-- Everything `complete` can answer. -/
theorem complete_eq (d : Sfc) (c : ResCode) (s : State) :
    complete d c s = .next { s with sfc := { d with res := c.code } } := rfl

theorem succeed_eq (d : Sfc) (s : State) : succeed d s = .next { s with sfc := { d with res := 0x00#8 } } := rfl

/-- `fail` writes RES and nothing else. -/
theorem fail_eq (c : ResCode) (s : State) : fail c s = .next { s with sfc := { s.sfc with res := c.code } } := rfl

/-- The result codes' values are pairwise different. -/
theorem ResCode.code_injective {c e : ResCode} (h : c.code = e.code) : c = e := by
  cases c <;> cases e <;> first | rfl | exact absurd h (by decide)

/-! ## Buffers -/

@[simp] theorem byteAt_nil (i : Nat) : byteAt [] i = 0x00#8 := by simp [byteAt]

/-- A read at or beyond the length answers 0x00 (R53). -/
theorem byteAt_of_length_le {l : List Byte} {i : Nat} (h : l.length ≤ i) : byteAt l i = 0x00#8 := by
  simp [byteAt, List.getElem?_eq_none h]

theorem byteAt_of_getElem? {l : List Byte} {i : Nat} {b : Byte} (h : l[i]? = some b) : byteAt l i = b := by
  simp [byteAt, h]

/-- `lastN` never keeps more than it is asked to. -/
theorem lastN_length_le (n : Nat) (l : List Byte) : (lastN n l).length ≤ n := by
  simp [lastN]; omega

/-- Shifting a byte in and keeping the last `n` is keeping the last `n` of both lists together. -/
theorem lastN_append_lastN (n : Nat) (l m : List Byte) : lastN n (lastN n l ++ m) = lastN n (l ++ m) := by
  rcases Nat.le_total l.length n with h | h
  · simp [lastN, Nat.sub_eq_zero_of_le h]
  · simp only [lastN, List.length_append, List.length_drop, List.drop_append, List.drop_drop]
    congr 2 <;> omega

/-! ## The ports -/

theorem tagPortWrite_eq (v : Byte) (d : Sfc) :
    tagPortWrite v d = { d with tag := (d.tag ++ [v]).drop (d.tag.length + 1 - 8) } := by
  simp only [tagPortWrite, lastN, List.length_append, List.length_singleton, tagLen]

theorem bodyPortWrite_room {cfg : Config} {d : Sfc} (v : Byte) (h : d.body.length < cfg.bodyMax) :
    bodyPortWrite cfg v d = { d with body := d.body ++ [v] } := by simp [bodyPortWrite, h]

theorem bodyPortWrite_full {cfg : Config} {d : Sfc} (v : Byte) (h : cfg.bodyMax ≤ d.body.length) :
    bodyPortWrite cfg v d = { d with bodyOvf := true } := by simp [bodyPortWrite, Nat.not_lt.mpr h]

theorem rxPortWrite_room {cfg : Config} {d : Sfc} (v : Byte) (h : d.rx.length < cfg.rxMax) :
    rxPortWrite cfg v d = { d with rx := d.rx ++ [v] } := by simp [rxPortWrite, h]

theorem rxPortWrite_full {cfg : Config} {d : Sfc} (v : Byte) (h : cfg.rxMax ≤ d.rx.length) :
    rxPortWrite cfg v d = { d with rxOvf := true } := by simp [rxPortWrite, Nat.not_lt.mpr h]

theorem hexPortWrite_room {d : Sfc} (v : Byte) (h : d.hexb.length < 8) :
    hexPortWrite v d = { d with hexb := d.hexb ++ [v] } := by simp [hexPortWrite, hexDigits, h]

theorem hexPortWrite_full {d : Sfc} (v : Byte) (h : 8 ≤ d.hexb.length) :
    hexPortWrite v d = { d with hexOvf := true } := by simp [hexPortWrite, hexDigits, Nat.not_lt.mpr h]

/-! ## Bit fields -/

/-- `putField` bit by bit: the field's bits come from the value, the others stay (R9). -/
theorem getLsbD_putField {n m : Nat} (w : BitVec n) (lo : Nat) (v : BitVec m) (k : Nat) :
    (putField w lo v).getLsbD k =
      if lo ≤ k ∧ k < lo + m then decide (k < n) && v.getLsbD (k - lo) else w.getLsbD k := by
  simp only [putField, BitVec.getLsbD_or, BitVec.getLsbD_and, BitVec.getLsbD_not, BitVec.getLsbD_shiftLeft,
    BitVec.getLsbD_setWidth, BitVec.getLsbD_allOnes]
  by_cases hn : k < n
  · by_cases hlo : k < lo
    · simp [hn, hlo, Nat.not_le.mpr hlo]
    · by_cases hm : k < lo + m
      · have h1 : k - lo < n := by omega
        have h2 : k - lo < m := by omega
        have h3 : lo ≤ k := by omega
        simp [hn, hlo, h1, h2, h3, hm]
      · have h2 : ¬ (k - lo < m) := by omega
        have h3 : v.getLsbD (k - lo) = false := BitVec.getLsbD_of_ge _ _ (by omega)
        simp [hn, hlo, h2, h3, hm]
  · have hw : w.getLsbD k = false := BitVec.getLsbD_of_ge _ _ (by omega)
    simp [hn, hw]

/-- A word's other bits stay when one byte of FLT is written, and the byte reads back (R131). -/
theorem fltByte_setFltByte (w : Word32) (i : Fin 4) (v : Byte) : fltByte (setFltByte w i v) i = v := by
  ext k hk
  have h : 24 - 8 * i.val + k < 32 := by omega
  rw [fltByte, BitVec.getElem_extractLsb', setFltByte, getLsbD_putField, if_pos (by omega)]
  simp [h, hk]

/-! ## The register map -/

/-- From 0x001B on, an address is a window, an indexed register or unmapped. -/
theorem locate_of_ge {a : Addr} (h : 0x001B ≤ a.toNat) : locate a = locateWindow a.toNat := by
  unfold locate
  split <;> first | omega | rfl


/-- An index is the address minus the base (R51). -/
theorem index_eq {k base n : Nat} (i : Fin k) (h : n = base + i.val) (hk : n - base < k) :
    (⟨n - base, hk⟩ : Fin k) = i := by
  apply Fin.ext; show n - base = i.val; omega

theorem locateWindow_decAddr {n : Nat} (i : Fin 5) (h : n = 0x0011 + i.val) : locateWindow n = .decAddr i := by
  have := i.isLt
  unfold locateWindow
  split_ifs <;> first | omega | exact congrArg _ (index_eq i h _)

theorem locateWindow_flt {n : Nat} (i : Fin 4) (h : n = 0x001C + i.val) : locateWindow n = .flt i := by
  have := i.isLt
  unfold locateWindow
  split_ifs <;> first | omega | exact congrArg _ (index_eq i h _)

theorem locateWindow_paddr {n : Nat} (i : Fin 6) (h : n = 0x0020 + i.val) : locateWindow n = .paddr i := by
  have := i.isLt
  unfold locateWindow
  split_ifs <;> first | omega | exact congrArg _ (index_eq i h _)

theorem locateWindow_tag {n : Nat} (i : Fin 8) (h : n = 0x0028 + i.val) : locateWindow n = .tag i := by
  have := i.isLt
  unfold locateWindow
  split_ifs <;> first | omega | exact congrArg _ (index_eq i h _)

theorem locateWindow_hexb {n : Nat} (i : Fin 8) (h : n = 0x0030 + i.val) : locateWindow n = .hexb i := by
  have := i.isLt
  unfold locateWindow
  split_ifs <;> first | omega | exact congrArg _ (index_eq i h _)

theorem locateWindow_hexo {n : Nat} (i : Fin 8) (h : n = 0x0038 + i.val) : locateWindow n = .hexo i := by
  have := i.isLt
  unfold locateWindow
  split_ifs <;> first | omega | exact congrArg _ (index_eq i h _)

theorem locateWindow_bodyWin {n : Nat} (i : Fin 256) (h : n = 0x0100 + i.val) : locateWindow n = .bodyWin i := by
  have := i.isLt
  unfold locateWindow
  split_ifs <;> first | omega | exact congrArg _ (index_eq i h _)

theorem locateWindow_txWin {n : Nat} (i : Fin 512) (h : n = 0x0200 + i.val) : locateWindow n = .txWin i := by
  have := i.isLt
  unfold locateWindow
  split_ifs <;> first | omega | exact congrArg _ (index_eq i h _)

theorem locateWindow_rxWin {n : Nat} (i : Fin 1024) (h : n = 0x0400 + i.val) : locateWindow n = .rxWin i := by
  have := i.isLt
  unfold locateWindow
  split_ifs <;> first | omega | exact congrArg _ (index_eq i h _)

theorem locateWindow_dataWin {n : Nat} (i : Fin 256) (h : n = 0x0800 + i.val) : locateWindow n = .dataWin i := by
  have := i.isLt
  unfold locateWindow
  split_ifs <;> first | omega | exact congrArg _ (index_eq i h _)

/-- The index of a window's address, as a number. -/
theorem toNat_indexed {k : Nat} (base : Nat) (i : Fin k) (h : base + k ≤ 65536) :
    (BitVec.ofNat 16 (base + i.val)).toNat = base + i.val := by
  have := i.isLt
  rw [BitVec.toNat_ofNat, Nat.mod_eq_of_lt (by omega)]

@[simp] theorem locate_decAddr (i : Fin 5) : locate (BitVec.ofNat 16 (0x0011 + i.val)) = .decAddr i := by
  revert i; decide

@[simp] theorem locate_flt (i : Fin 4) : locate (BitVec.ofNat 16 (0x001C + i.val)) = .flt i := by
  have h := toNat_indexed 0x001C i (by decide)
  rw [locate_of_ge (by omega), locateWindow_flt i h]

@[simp] theorem locate_paddr (i : Fin 6) : locate (BitVec.ofNat 16 (0x0020 + i.val)) = .paddr i := by
  have h := toNat_indexed 0x0020 i (by decide)
  rw [locate_of_ge (by omega), locateWindow_paddr i h]

@[simp] theorem locate_tag (i : Fin 8) : locate (BitVec.ofNat 16 (0x0028 + i.val)) = .tag i := by
  have h := toNat_indexed 0x0028 i (by decide)
  rw [locate_of_ge (by omega), locateWindow_tag i h]

@[simp] theorem locate_hexb (i : Fin 8) : locate (BitVec.ofNat 16 (0x0030 + i.val)) = .hexb i := by
  have h := toNat_indexed 0x0030 i (by decide)
  rw [locate_of_ge (by omega), locateWindow_hexb i h]

@[simp] theorem locate_hexo (i : Fin 8) : locate (BitVec.ofNat 16 (0x0038 + i.val)) = .hexo i := by
  have h := toNat_indexed 0x0038 i (by decide)
  rw [locate_of_ge (by omega), locateWindow_hexo i h]

@[simp] theorem locate_bodyWin (i : Fin 256) : locate (BitVec.ofNat 16 (0x0100 + i.val)) = .bodyWin i := by
  have h := toNat_indexed 0x0100 i (by decide)
  rw [locate_of_ge (by omega), locateWindow_bodyWin i h]

@[simp] theorem locate_txWin (i : Fin 512) : locate (BitVec.ofNat 16 (0x0200 + i.val)) = .txWin i := by
  have h := toNat_indexed 0x0200 i (by decide)
  rw [locate_of_ge (by omega), locateWindow_txWin i h]

@[simp] theorem locate_rxWin (i : Fin 1024) : locate (BitVec.ofNat 16 (0x0400 + i.val)) = .rxWin i := by
  have h := toNat_indexed 0x0400 i (by decide)
  rw [locate_of_ge (by omega), locateWindow_rxWin i h]

@[simp] theorem locate_dataWin (i : Fin 256) : locate (BitVec.ofNat 16 (0x0800 + i.val)) = .dataWin i := by
  have h := toNat_indexed 0x0800 i (by decide)
  rw [locate_of_ge (by omega), locateWindow_dataWin i h]

/-- The address of a mapped location names it. -/
theorem locate_addressOf {l : Loc} {a : Addr} (h : addressOf l = some a) : locate a = l := by
  cases l <;> simp only [addressOf, Option.some.injEq, reduceCtorEq] at h <;> subst h <;> first | rfl | simp

/-- `BusRead` at an indexed location. -/
theorem busRead_of_locate {a : Addr} {l : Loc} (h : locate a = l) (d : Sfc) : busRead a d = readLoc l d := by
  rw [busRead, h]

/-- What `BusWrite` does at an address other than CMD: the location's write effect on the SFC, and nothing else. -/
theorem busWrite_of_ne_cmd {a : Addr} (h : locate a ≠ .cmd) (v : Byte) (s : State) :
    busWrite a v s = .next (s.withSfc (writeLoc s.cfg (locate a) v s.sfc)) := by
  unfold busWrite
  split
  · contradiction
  · rfl

theorem locateWindow_ne_cmd (n : Nat) : locateWindow n ≠ .cmd := by
  unfold locateWindow
  split_ifs <;> exact Loc.noConfusion

/-- CMD is at address 0 alone (R51). -/
theorem locate_eq_cmd_iff (a : Addr) : locate a = .cmd ↔ a = 0x0000#16 := by
  constructor
  · intro h
    unfold locate at h
    split at h
    · apply BitVec.eq_of_toNat_eq; assumption
    all_goals first | exact (locateWindow_ne_cmd _ h).elim | cases h
  · rintro rfl; rfl

end Sys2Proof.Machine
end

