-- ==== Sys2Proof/Laws/Codec.lean ====
section
/-!
SUPPORT. The codec's functions: the strip function, the checksum and the frame, and hex digits.
-/

namespace Sys2Proof.Machine

/-! ## Packed ASCII -/

/-- The stream bit by bit: six bits of each character, the first character highest (R59, R91). -/
theorem getLsbD_packedStream (t : List Byte) {k : Nat} (hk : k < 48) :
    (packedStream t).getLsbD k = (byteAt t (7 - k / 6)).getLsbD (k % 6) := by
  simp only [packedStream, List.foldl_cons, List.foldl_nil, getLsbD_putField]
  interval_cases k <;> simp [symbol]

/-- A byte of PADDR bit by bit. -/
theorem getLsbD_streamByte (w : BitVec 48) (j : Nat) {k : Nat} (hk : k < 8) :
    (streamByte w j).getLsbD k = w.getLsbD (40 - 8 * j + k) := by
  rw [streamByte, BitVec.getLsbD_extractLsb']; simp [hk]

/-! ## Strip -/

@[simp] theorem strip_nil : strip [] = [] := rfl

@[simp] theorem strip_cons_sync (r : List Byte) : strip (syncByte :: r) = strip r := by simp [strip]

@[simp] theorem strip_cons_of_ne {b : Byte} (r : List Byte) (h : b ≠ syncByte) : strip (b :: r) = b :: strip r := by
  simp [strip, h]

@[simp] theorem strip_append (r q : List Byte) : strip (r ++ q) = strip r ++ strip q := by simp [strip]

/-- No sync byte survives. -/
theorem sync_notMem_strip (r : List Byte) : syncByte ∉ strip r := by simp [strip]

theorem strip_length_le (r : List Byte) : (strip r).length ≤ r.length := List.length_filter_le ..

/-- A list without sync bytes is left as it is. -/
theorem strip_of_notMem {r : List Byte} (h : syncByte ∉ r) : strip r = r := by
  rw [strip, List.filter_eq_self]
  intro b hb
  have : b ≠ syncByte := fun e => h (e ▸ hb)
  simp [this]

/-! ## Checksum and frame -/

/-- The XOR of a list from a start value. -/
theorem foldl_xor (s : List Byte) (x : Byte) :
    s.foldl (fun x b => x ^^^ b) x = x ^^^ s.foldl (fun x b => x ^^^ b) 0x00#8 := by
  induction s generalizing x with
  | nil => simp
  | cons b s ih =>
    rw [List.foldl_cons, List.foldl_cons, ih, ih (0x00#8 ^^^ b)]
    simp [BitVec.xor_assoc]

@[simp] theorem crc_nil : crc [] = 0x00#8 := rfl

/-- A leading sync byte is skipped. -/
@[simp] theorem crc_cons_sync (s : List Byte) : crc (syncByte :: s) = crc s := by simp [crc]

/-- From the first other byte on, every byte counts. -/
theorem crc_cons_of_ne {b : Byte} (s : List Byte) (h : b ≠ syncByte) :
    crc (b :: s) = (b :: s).foldl (fun x b => x ^^^ b) 0x00#8 := by
  simp [crc, h]

/-- The length of a frame: preamble 4, checksum 1, terminator 1 (R112). -/
@[simp] theorem frameOf_length (b : List Byte) : (frameOf b).length = b.length + 6 := by
  simp only [frameOf, List.length_append, List.length_replicate, List.length_singleton, preambleLen]; omega

/-- A frame as preamble, body, and its last two bytes. -/
theorem frameOf_eq (b : List Byte) : frameOf b = List.replicate 4 0xFF#8 ++ (b ++ [crc b, 0x00#8]) := by
  simp only [frameOf, List.append_assoc]; rfl

theorem frameOf_ne_nil (b : List Byte) : frameOf b ≠ [] := by
  intro h
  have := congrArg List.length h
  simp at this

/-! ## Hex digits -/

/-- What H2F reads of a character F2H wrote, in either letter case (R136). -/
theorem hexval_hexchar (hc : HexCase) (n : Nibble) : hexval (hexchar hc n) = some n := by
  cases hc <;> revert n <;> decide

/-- The string of eight characters is not padded. -/
theorem paddedHex_of_length {l : List Byte} (h : l.length = 8) : paddedHex l = l := by
  simp [paddedHex, hexDigits, h]

/-- A hex string has no word exactly when some character is no hex digit (R134). -/
theorem shiftInDigits_eq_none_iff (t : List Byte) (w : Word32) :
    shiftInDigits w t = none ↔ ∃ c ∈ t, hexval c = none := by
  induction t generalizing w with
  | nil => simp [shiftInDigits]
  | cons c t ih =>
    rw [shiftInDigits]
    cases h : hexval c <;> simp [h, ih]

/-- The padding brings no bad character. -/
theorem paddedHex_bad_iff (l : List Byte) :
    (∃ c ∈ paddedHex l, hexval c = none) ↔ ∃ c ∈ l, hexval c = none := by
  simp only [paddedHex, List.mem_append]
  constructor
  · rintro ⟨c, h | h, hc⟩
    · exact ⟨c, h, hc⟩
    · rw [(List.mem_replicate.1 h).2] at hc; exact absurd hc (by decide)
  · rintro ⟨c, h, hc⟩; exact ⟨c, .inl h, hc⟩

end Sys2Proof.Machine
end

