-- ==== Sys2Proof/Laws/Step.lean ====
section
/-!
SUPPORT. What a command, an event and a step can do, said once: each answers a next state, and a command changes the
SFC's part of the state only.
-/

namespace Sys2Proof.Machine

/-- FDEC's outcomes, by the overflow flag and the stripped sequence (R114). -/
theorem execFdec_cases (s : State) :
    (s.sfc.rxOvf = true ∧ execFdec s = fail .rxOvf s) ∨
    (s.sfc.rxOvf = false ∧ (strip s.sfc.rx).length < 8 ∧
      execFdec s = complete (decodeShort (strip s.sfc.rx) s.sfc) .decShort s) ∨
    (s.sfc.rxOvf = false ∧ 8 ≤ (strip s.sfc.rx).length ∧
      (strip s.sfc.rx).length < 8 + (byteAt (strip s.sfc.rx) 7).toNat ∧
      execFdec s = complete (decodeHeader (strip s.sfc.rx) [] s.sfc) .decBounds s) ∨
    (s.sfc.rxOvf = false ∧ 8 + (byteAt (strip s.sfc.rx) 7).toNat ≤ (strip s.sfc.rx).length ∧
      execFdec s = succeed (decodeHeader (strip s.sfc.rx)
        (((strip s.sfc.rx).drop 8).take (byteAt (strip s.sfc.rx) 7).toNat) s.sfc) s) := by
  by_cases ho : s.sfc.rxOvf = true
  · left; simp [execFdec, ho]
  · right
    have ho' : s.sfc.rxOvf = false := by simpa using ho
    have e : execFdec s =
        if (strip s.sfc.rx).length < 8 then complete (decodeShort (strip s.sfc.rx) s.sfc) .decShort s
        else if 8 + (byteAt (strip s.sfc.rx) 7).toNat > (strip s.sfc.rx).length then
          complete (decodeHeader (strip s.sfc.rx) [] s.sfc) .decBounds s
        else succeed (decodeHeader (strip s.sfc.rx)
          (((strip s.sfc.rx).drop 8).take (byteAt (strip s.sfc.rx) 7).toNat) s.sfc) s := if_neg ho
    rw [e]
    by_cases h8 : (strip s.sfc.rx).length < 8
    · exact .inl ⟨ho', h8, if_pos h8⟩
    · rw [if_neg h8]
      by_cases hn : 8 + (byteAt (strip s.sfc.rx) 7).toNat > (strip s.sfc.rx).length
      · exact .inr (.inl ⟨ho', by omega, by omega, if_pos hn⟩)
      · exact .inr (.inr ⟨ho', by omega, if_neg hn⟩)

/-- H2F's outcomes, by the overflow flag and the characters (R134). -/
theorem execH2f_cases (s : State) :
    (s.sfc.hexOvf = true ∧ execH2f s = fail .hexOvf s) ∨
    (s.sfc.hexOvf = false ∧ (∃ c ∈ s.sfc.hexb, hexval c = none) ∧ execH2f s = fail .hexChar s) ∨
    (s.sfc.hexOvf = false ∧ (¬ ∃ c ∈ s.sfc.hexb, hexval c = none) ∧
      ∃ w, hexWord (paddedHex s.sfc.hexb) = some w ∧ execH2f s = succeed { s.sfc with flt := w } s) := by
  by_cases ho : s.sfc.hexOvf = true
  · exact .inl ⟨ho, if_pos ho⟩
  · right
    have ho' : s.sfc.hexOvf = false := by simpa using ho
    have bad := shiftInDigits_eq_none_iff (paddedHex s.sfc.hexb) 0#32
    rw [paddedHex_bad_iff] at bad
    have e : execH2f s = match hexWord (paddedHex s.sfc.hexb) with
      | none => fail .hexChar s
      | some w => succeed { s.sfc with flt := w } s := if_neg ho
    cases h : hexWord (paddedHex s.sfc.hexb) with
    | none => rw [h] at e; exact .inl ⟨ho', bad.1 h, e⟩
    | some w =>
      rw [h] at e
      refine .inr ⟨ho', fun hc => ?_, w, rfl, e⟩
      rw [hexWord, bad.2 hc] at h
      cases h

/-- Every command answers a next state that differs from the given one in the SFC's part only (R161: no traps). -/
theorem exec_next (i : Instr) (s : State) : ∃ d : Sfc, exec i s = .next (s.withSfc d) := by
  cases i <;> simp only [exec]
  case fdec => rcases execFdec_cases s with ⟨_, h⟩ | ⟨_, _, h⟩ | ⟨_, _, _, h⟩ | ⟨_, _, h⟩ <;> exact ⟨_, h⟩
  case pack => unfold execPack; split <;> exact ⟨_, rfl⟩
  case csum => unfold execCsum; split <;> exact ⟨_, rfl⟩
  case fenc => unfold execFenc; split <;> exact ⟨_, rfl⟩
  case h2f =>
    unfold execH2f
    split
    · exact ⟨_, rfl⟩
    · split <;> exact ⟨_, rfl⟩
  all_goals exact ⟨_, rfl⟩

/-- A command looks at the parameters and the SFC only: the host's side of the bus plays no part. -/
theorem exec_congr {i : Instr} {s t : State} {d : Sfc} (hc : t.cfg = s.cfg) (hs : t.sfc = s.sfc)
    (h : exec i s = .next (s.withSfc d)) : exec i t = .next (t.withSfc d) := by
  obtain ⟨c, q, b⟩ := s
  obtain ⟨c', q', b'⟩ := t
  cases hc; cases hs
  have key : ∀ x : Sfc, (Host.Outcome.next ((State.mk c q b).withSfc x) : Result) = .next ((State.mk c q b).withSfc d) →
      (Host.Outcome.next ((State.mk c q b').withSfc x) : Result) = .next ((State.mk c q b').withSfc d) := by
    intro x hx
    have : x = d := congrArg State.sfc (Host.Outcome.next.inj hx)
    rw [this]
  cases i <;> simp only [exec] at h ⊢
  case pack => unfold execPack at h ⊢; split_ifs at h ⊢ <;> exact key _ h
  case csum => unfold execCsum at h ⊢; split_ifs at h ⊢ <;> exact key _ h
  case fenc => unfold execFenc at h ⊢; split_ifs at h ⊢ <;> exact key _ h
  case fdec => simp only [execFdec] at h ⊢; split_ifs at h ⊢ <;> exact key _ h
  case h2f =>
    simp only [execH2f] at h ⊢
    split_ifs at h ⊢
    · exact key _ h
    · cases hw : hexWord (paddedHex q.hexb) <;> simp only [hw] at h ⊢ <;> exact key _ h
  all_goals exact key _ h

/-- Every bus write answers a next state that differs in the SFC's part only. -/
theorem busWrite_next (a : Addr) (v : Byte) (s : State) : ∃ d : Sfc, busWrite a v s = .next (s.withSfc d) := by
  unfold busWrite
  split
  · exact exec_next _ _
  · exact ⟨_, rfl⟩

/-- A write to CMD runs the command of its byte. -/
theorem busWrite_cmd (op : Byte) (s : State) : busWrite cmdAddr op s = exec (decodeOp op) s := rfl

/-- What one step can do: nothing with no event pending, else its oldest event's effect. -/
theorem step_cases (s : State) :
    (s.bus.pending = [] ∧ step s = .next s) ∨
    (∃ a rest, s.bus.pending = .access (.read a) :: rest ∧
      step s = .next ((s.withPending rest).reply (busRead a s.sfc))) ∨
    (∃ a v rest, s.bus.pending = .access (.write a v) :: rest ∧ step s = busWrite a v (s.withPending rest)) ∨
    (∃ rest, s.bus.pending = .powerOn :: rest ∧ step s = .next (powerOnReset (s.withPending rest))) := by
  unfold step serveNext
  rcases hp : s.bus.pending with _ | ⟨⟨⟨a⟩ | ⟨a, v⟩⟩ | _, rest⟩
  · left; simp
  · right; left; exact ⟨a, rest, rfl, rfl⟩
  · right; right; left; exact ⟨a, v, rest, rfl, rfl⟩
  · right; right; right; exact ⟨rest, rfl, rfl⟩

/-- One more step of a run, when the first answers a next state. -/
theorem runSteps_succ {k : Nat} {s t : State} (h : step s = .next t) : runSteps (k + 1) s = runSteps k t := by
  rw [runSteps, h]

/-- One more step of any core. -/
theorem core_run_succ (M : Host.Core) (k : Nat) (s : M.State) :
    (∀ t, M.step s = .next t → M.run (k + 1) s = M.run k t) ∧
    (∀ r, M.step s = .fault r → M.run (k + 1) s = .fault r) ∧
    (∀ r, M.step s = .refused r → M.run (k + 1) s = .refused r) := by
  refine ⟨fun t h => ?_, fun r h => ?_, fun r h => ?_⟩ <;> rw [Host.Core.run, h]

/-- The runs claims speak of are the runs of the core. -/
theorem runSteps_eq_core_run (k : Nat) (s : State) : runSteps k s = Sys2Proof.core.run k s := by
  induction k generalizing s with
  | zero => rfl
  | succ k ih =>
    obtain ⟨hn, hf, hr⟩ := core_run_succ Sys2Proof.core k s
    cases h : step s with
    | next t => rw [runSteps_succ h, ih]; exact (hn t h).symm
    | fault r => rw [runSteps, h]; exact (hf r h).symm
    | refused r => rw [runSteps, h]; exact (hr r h).symm

/-- A run of events is its first event's step and then the rest. -/
theorem runEvents_cons {e : HostEvent} {evs : List HostEvent} {s t : State}
    (h : runEvent e (s.withPending evs) = .next t) (hp : t.bus.pending = evs) :
    runEvents (e :: evs) s = runEvents evs t := by
  have ht : t.withPending evs = t := by cases t; cases hp; rfl
  have hs : step (s.withPending (e :: evs)) = .next t := h
  rw [runEvents, List.length_cons, runSteps_succ hs, runEvents, ht]

@[simp] theorem runEvents_nil (s : State) : runEvents [] s = .next (s.withPending []) := rfl

end Sys2Proof.Machine
end

