-- ==== Sys2Proof/Laws/PerInstr.lean ====
section
/-!
SUPPORT. Statements made for every command, one lemma per constructor.
-/

namespace Sys2Proof.Laws.DecodeEncode

/-- R74: a command is one byte; R71, R73: the byte of a well-formed command decodes to it. -/
def Statement (i : Instr) : Prop :=
  (encode i).length = 1 ∧ (i.WellFormed → decodeOp (opcodeOf i) = i)

theorem nop : Statement .nop := ⟨rfl, fun _ => rfl⟩
theorem pack : Statement .pack := ⟨rfl, fun _ => rfl⟩
theorem csum : Statement .csum := ⟨rfl, fun _ => rfl⟩
theorem fenc : Statement .fenc := ⟨rfl, fun _ => rfl⟩
theorem fdec : Statement .fdec := ⟨rfl, fun _ => rfl⟩
theorem f2h : Statement .f2h := ⟨rfl, fun _ => rfl⟩
theorem h2f : Statement .h2f := ⟨rfl, fun _ => rfl⟩
theorem clrTag : Statement .clrTag := ⟨rfl, fun _ => rfl⟩
theorem clrBody : Statement .clrBody := ⟨rfl, fun _ => rfl⟩
theorem clrRx : Statement .clrRx := ⟨rfl, fun _ => rfl⟩
theorem clrHex : Statement .clrHex := ⟨rfl, fun _ => rfl⟩
theorem srst : Statement .srst := ⟨rfl, fun _ => rfl⟩

/-- Every reserved OP decodes to the reserved command that carries it. -/
theorem badcmd (op : Byte) : Statement (.badcmd op) := by
  refine ⟨rfl, ?_⟩
  revert op
  decide

end Sys2Proof.Laws.DecodeEncode
end

