-- ==== Sys2Proof/Tests/Slice0.lean ====
section
/-!
SUPPORT. Small tests and witnesses. The expected values of the tests are those of spec/95_test_vectors.md, of the
tables of spec/30_encoding.md and of the rules' examples; each test names its source. A witness shows a concrete state
and operands that meet the hypotheses of the obligation it is named after.
-/

namespace Sys2Proof.Tests

open Sys2Proof Sys2Proof.Machine

/-- The SFC's part of a next state. -/
def sfcOf (r : Result) : Option Sfc :=
  match r with
  | .next t => some t.sfc
  | .fault _ => none
  | .refused _ => none

/-- The reset instance with a given SFC and given host events. -/
def at_ (d : Sfc) (evs : List HostEvent) : State := { State.reset with sfc := d, bus := { pending := evs, replies := [] } }

/-- A state like one in the middle of P1 and P2: tag "28478010", body 82 01 with its frame, V-FDEC-1's response. -/
def loaded : State :=
  at_ { Sfc.reset with
    tag := [0x32, 0x38, 0x34, 0x37, 0x38, 0x30, 0x31, 0x30]
    paddr := #v[0xCB, 0x8D, 0x37, 0xE3, 0x0C, 0x70]
    body := [0x82, 0x01]
    csum := 0x83
    tx := frameOf [0x82, 0x01]
    rx := [0xFF, 0xFF, 0xFF, 0x86, 0xA1, 0xB2, 0xC3, 0xD4, 0xE5, 0x01, 0x05, 0xAB, 0x3F, 0xC0, 0x00, 0x00, 0x77]
    slen := 14
    decDelim := 0x86
    decAddr := #v[0xA1, 0xB2, 0xC3, 0xD4, 0xE5]
    decCmd := 0x01
    decBcnt := 0x05
    data := [0xAB, 0x3F, 0xC0, 0x00, 0x00]
    flt := 0x3FC00000
    hexb := [0x33, 0x46, 0x43]
    res := 0x05 } []

/-- A small instance (BODY_MAX 1, RX_MAX 8, lower-case digits) with all three buffers full and all flags set. -/
def overflown : State where
  cfg := { bodyMax := 1, rxMax := 8, hexCase := .lower, cmdLatency := 3 }
  sfc := { Sfc.reset with
    body := [0x01]
    rx := [0x01, 0x02, 0x03, 0x04, 0x05, 0x06, 0x07, 0x00]
    hexb := [0x33, 0x46, 0x43, 0x30, 0x30, 0x30, 0x30, 0x30]
    bodyOvf := true
    rxOvf := true
    hexOvf := true }
  bus := { pending := [], replies := [] }

theorem loaded_inv : loaded.Inv := by
  refine ⟨by decide, by decide, by decide, by decide, by decide, by decide, .inr ⟨[0x82, 0x01], by decide, rfl⟩,
    .inr (by decide), by decide, ⟨.decShort, by decide⟩, by decide⟩

theorem overflown_inv : overflown.Inv := by
  refine ⟨by decide, by decide, by decide, by decide, by decide, by decide, .inl rfl, .inl rfl, by decide,
    ⟨.ok, by decide⟩, by decide⟩

/-! ## Well-formedness: one ill-formed term per check -/

/-- A reserved command with the OP of PACK (R73). -/
theorem test_wf_badcmd : (Instr.badcmd 0x01#8).wf = false := by decide
/-- The borders of the reserved space (R73). -/
theorem test_wf_badcmd_borders :
    (Instr.badcmd 0x06#8).wf = false ∧ (Instr.badcmd 0x07#8).wf = true ∧ (Instr.badcmd 0x08#8).wf = false ∧
    (Instr.badcmd 0x0B#8).wf = false ∧ (Instr.badcmd 0x0C#8).wf = true ∧ (Instr.badcmd 0x0E#8).wf = true ∧
    (Instr.badcmd 0x0F#8).wf = false ∧ (Instr.badcmd 0x10#8).wf = true ∧ (Instr.badcmd 0xFF#8).wf = true := by
  decide
/-- `CMD` with no mnemonic of R77. -/
theorem test_wf_cmd_form : (HostForm.cmd (.badcmd 0x07#8)).wf = false ∧ (HostForm.cmd .pack).wf = true := by decide
/-- A transaction word with a bit of 31:25 set (R75). -/
theorem test_wf_word_top : decodeAccess 0x03000001#32 = none := by decide
/-- A read with DATA other than 0x00 (R75). -/
theorem test_wf_word_read_data : decodeAccess 0x00000101#32 = none := by decide
/-- A program with one ill-formed word has no accesses (R75). -/
theorem test_wf_program : decodeProgram [0x01000001#32, 0x80000000#32] = none := by decide
/-- Parameters outside their legal values (R7), and the borders inside. -/
theorem test_wf_config :
    ¬ Config.Legal ⟨0, 8, .upper, 0⟩ ∧ ¬ Config.Legal ⟨256, 8, .upper, 0⟩ ∧ ¬ Config.Legal ⟨1, 7, .upper, 0⟩ ∧
    ¬ Config.Legal ⟨1, 1024, .upper, 0⟩ ∧ Config.Legal ⟨1, 8, .upper, 0⟩ ∧ Config.Legal ⟨255, 1023, .lower, 9⟩ := by
  decide

/-! ## Decoding: the words of 30_encoding.md R71, R73 -/

theorem test_decode_nop : decode [0b00000000#8] = .ok (.nop, []) := rfl
theorem test_decode_pack : decode [0b00000001#8] = .ok (.pack, []) := rfl
theorem test_decode_csum : decode [0b00000010#8] = .ok (.csum, []) := rfl
theorem test_decode_fenc : decode [0b00000011#8] = .ok (.fenc, []) := rfl
theorem test_decode_fdec : decode [0b00000100#8] = .ok (.fdec, []) := rfl
theorem test_decode_f2h : decode [0b00000101#8] = .ok (.f2h, []) := rfl
theorem test_decode_h2f : decode [0b00000110#8] = .ok (.h2f, []) := rfl
theorem test_decode_clrTag : decode [0b00001000#8] = .ok (.clrTag, []) := rfl
theorem test_decode_clrBody : decode [0b00001001#8] = .ok (.clrBody, []) := rfl
theorem test_decode_clrRx : decode [0b00001010#8] = .ok (.clrRx, []) := rfl
theorem test_decode_clrHex : decode [0b00001011#8] = .ok (.clrHex, []) := rfl
theorem test_decode_srst : decode [0b00001111#8] = .ok (.srst, []) := rfl
/-- Reserved words at the borders of R73, and no bit a don't-care. -/
theorem test_decode_badcmd :
    decode [0b00000111#8] = .ok (.badcmd 0x07#8, []) ∧ decode [0b00001100#8] = .ok (.badcmd 0x0C#8, []) ∧
    decode [0b00010001#8] = .ok (.badcmd 0x11#8, []) ∧ decode [0b10000001#8] = .ok (.badcmd 0x81#8, []) ∧
    decode [0b11111111#8] = .ok (.badcmd 0xFF#8, []) := ⟨rfl, rfl, rfl, rfl, rfl⟩
/-- No byte, no command; and a command leaves the bytes after its one (R74). -/
theorem test_decode_stream :
    decode [] = .error .noByte ∧ decode [0x01#8, 0x0F#8] = .ok (.pack, [0x0F#8]) := ⟨rfl, rfl⟩
/-- The opcode table's numbering. -/
theorem test_decode_tableWord :
    decodeTableWord 8 0x0B = some .clrHex ∧ decodeTableWord 8 0xFF = some (.badcmd 0xFF#8) ∧
    decodeTableWord 16 0x100 = none := by decide
theorem test_encode_srst : encode .srst = [0x0F#8] := rfl

/-! ## Transaction words and the assembler: programs P1 and P2 of 95_test_vectors.md -/

/-- P1, accesses 1, 3, 4 and the tag's first two characters. -/
theorem test_assemble_p1 :
    assemble [.cmd .srst, .tag [0x32#8, 0x38#8], .cmd .pack, .rd 0x0001#16 0x00#8] =
      [0x0100000F#32, 0x01000432#32, 0x01000438#32, 0x01000001#32, 0x00000100#32] := by decide
/-- P2, accesses 2 (first two bytes), 15 and 27; P1, access 12 (first byte). -/
theorem test_assemble_p2 :
    assemble [.rx [0xFF#8, 0x86#8], .flt 0x3FC00000#32, .hex [0x33#8, 0x46#8, 0x43#8], .body [0x82#8]] =
      [0x010008FF#32, 0x01000886#32, 0x01001C3F#32, 0x01001DC0#32, 0x01001E00#32, 0x01001F00#32,
       0x01000B33#32, 0x01000B46#32, 0x01000B43#32, 0x01000682#32] := by decide
/-- The words of P1, access 5 and P2, access 10, read back. -/
theorem test_decodeAccess :
    decodeAccess 0x00002000#32 = some (.read 0x0020#16) ∧ decodeAccess 0x00080000#32 = some (.read 0x0800#16) ∧
    decodeAccess 0x01000B58#32 = some (.write 0x000B#16 0x58#8) := by decide

/-! ## The commands: vectors of 95_test_vectors.md section 2 -/

/-- V-CTL-1. -/
theorem test_nop : (sfcOf (exec .nop loaded)).map (·.res) = some 0x00#8 := by decide
/-- V-PACK-1. -/
theorem test_pack_discovery_tag :
    (sfcOf (exec .pack loaded)).map (·.paddr) = some #v[0xCB, 0x8D, 0x37, 0xE3, 0x0C, 0x70] := by decide
/-- V-PACK-11: seven characters; PADDR keeps what it held. -/
theorem test_pack_short :
    (sfcOf (exec .pack (at_ { loaded.sfc with tag := [0x32, 0x38, 0x34, 0x37, 0x38, 0x30, 0x31] } []))).map
      (fun d => (d.res, d.paddr)) = some (0x02#8, #v[0xCB, 0x8D, 0x37, 0xE3, 0x0C, 0x70]) := by decide
/-- V-CSUM-5: only the leading FF is skipped. -/
theorem test_csum_leading_sync :
    (sfcOf (exec .csum (at_ { Sfc.reset with body := [0xFF, 0x12, 0xFF, 0x34] } []))).map (·.csum) = some 0xD9#8 := by
  decide
/-- V-CSUM-2: all sync, and V-CSUM-12's code when BODY_OVF is set. -/
theorem test_csum_all_sync_and_overflow :
    (sfcOf (exec .csum (at_ { Sfc.reset with body := [0xFF], csum := 0x55 } []))).map (·.csum) = some 0x00#8 ∧
    (sfcOf (exec .csum overflown)).map (fun d => (d.res, d.csum)) = some (0x03#8, 0x00#8) := by decide
/-- V-FENC-1. -/
theorem test_fenc_discovery_frame :
    (sfcOf (exec .fenc (at_ { Sfc.reset with body := [0x82, 0xCB, 0x8D, 0x37, 0xE3, 0x0C, 0x70] } []))).map
      (fun d => (d.csum, d.tx)) =
      some (0x6C#8, [0xFF, 0xFF, 0xFF, 0xFF, 0x82, 0xCB, 0x8D, 0x37, 0xE3, 0x0C, 0x70, 0x6C, 0x00]) := by decide
/-- V-FENC-2 and V-FENC-3: an empty body, and a checksum equal to the sync byte. -/
theorem test_fenc_corners :
    (sfcOf (exec .fenc State.reset)).map (·.tx) = some [0xFF, 0xFF, 0xFF, 0xFF, 0x00, 0x00] ∧
    (sfcOf (exec .fenc (at_ { Sfc.reset with body := [0x0F, 0xF0] } []))).map (·.tx) =
      some [0xFF, 0xFF, 0xFF, 0xFF, 0x0F, 0xF0, 0xFF, 0x00] := by decide
/-- V-FDEC-2: a lost FF shifts the data window. -/
theorem test_fdec_lost_sync :
    (sfcOf (exec .fdec (at_ { Sfc.reset with
      rx := [0xFF, 0xFF, 0x86, 0xA1, 0xB2, 0xC3, 0xD4, 0xE5, 0x01, 0x05, 0xAB, 0xFF, 0xC0, 0x00, 0x00, 0x77] }
      []))).map (fun d => ((d.res, d.slen, d.decDelim), d.decAddr, d.decCmd, d.decBcnt, d.data)) =
      some ((0x00#8, 13, 0x86#8), #v[0xA1, 0xB2, 0xC3, 0xD4, 0xE5], 0x01#8, 0x05#8, [0xAB, 0xC0, 0x00, 0x00, 0x77]) :=
  rfl
/-- V-FDEC-7 and V-FDEC-12: the two decode failures at their borders. -/
theorem test_fdec_failures :
    (sfcOf (exec .fdec (at_ { loaded.sfc with rx := [0x01, 0x02, 0x03, 0x04, 0x05, 0x06, 0x07, 0x01] } []))).map
      (fun d => (d.res, d.slen, d.decCmd, d.decBcnt, d.data)) = some (0x06#8, 8, 0x07#8, 0x01#8, []) ∧
    (sfcOf (exec .fdec (at_ { loaded.sfc with rx := [0x86, 0x01, 0x02, 0x03, 0x04, 0x05, 0x06, 0xFF] } []))).map
      (fun d => (d.res, d.slen, d.decDelim, d.data)) = some (0x05#8, 7, 0x00#8, []) := by decide
/-- V-F2H-1 in upper case: "3FC00000". -/
theorem test_f2h_upper :
    (sfcOf (exec .f2h loaded)).map (·.hexo) = some #v[0x33, 0x46, 0x43, 0x30, 0x30, 0x30, 0x30, 0x30] := by decide
/-- V-F2H-5 in lower case: "0000000f". -/
theorem test_f2h_lower :
    (sfcOf (exec .f2h { overflown with sfc := { Sfc.reset with flt := 0x0000000F } })).map (·.hexo) =
      some #v[0x30, 0x30, 0x30, 0x30, 0x30, 0x30, 0x30, 0x66] := by decide
/-- V-H2F-3: right padding; V-H2F-12: lower-case input. -/
theorem test_h2f :
    (sfcOf (exec .h2f (at_ { Sfc.reset with hexb := [0x33, 0x46, 0x43] } []))).map (·.flt) = some 0x3FC00000#32 ∧
    (sfcOf (exec .h2f (at_ { Sfc.reset with hexb := [0x63, 0x30] } []))).map (·.flt) = some 0xC0000000#32 := by decide
/-- V-H2F-8: "3G"; V-H2F-11's code on an overflow. -/
theorem test_h2f_failures :
    (sfcOf (exec .h2f (at_ { Sfc.reset with flt := 0x12345678, hexb := [0x33, 0x47] } []))).map
      (fun d => (d.res, d.flt)) = some (0x08#8, 0x12345678#32) ∧
    (sfcOf (exec .h2f overflown)).map (fun d => (d.res, d.flt)) = some (0x07#8, 0#32) := by decide
/-- R92's example: TAG_CNT and TAG0 read 0x00; PADDR stays. -/
theorem test_clrTag :
    (sfcOf (exec .clrTag loaded)).map (fun d => (busRead 0x0005#16 d, busRead 0x0028#16 d, d.paddr)) =
      some (0x00#8, 0x00#8, #v[0xCB, 0x8D, 0x37, 0xE3, 0x0C, 0x70]) := by decide
/-- V-PORT-2's clear. -/
theorem test_clrBody :
    (sfcOf (exec .clrBody overflown)).map (fun d => (d.body, busRead 0x0002#16 d)) = some ([], 0x06#8) := by decide
/-- R119: RX goes, the decoded fields stay. -/
theorem test_clrRx :
    (sfcOf (exec .clrRx loaded)).map (fun d => (d.rx, d.slen, d.data)) =
      some ([], 14, [0xAB, 0x3F, 0xC0, 0x00, 0x00]) := by decide
/-- R135's example. -/
theorem test_clrHex :
    (sfcOf (exec .clrHex overflown)).map (fun d => (busRead 0x000C#16 d, d.hexOvf)) = some (0x00#8, false) := by decide
/-- V-CTL-2. -/
theorem test_srst : sfcOf (exec .srst loaded) = some Sfc.reset := by decide
/-- V-CTL-4. -/
theorem test_badcmd :
    (sfcOf (busWrite 0x0000#16 0xFF#8 loaded)).map (fun d => (d.res, d.rx.length)) = some (0x01#8, 17) := by decide

/-! ## The bus and the ports -/

/-- V-BUS-1, V-BUS-3, V-BUS-4, V-BUS-5. -/
theorem test_bus_reads :
    busRead 0x0003#16 Sfc.reset = 0x00#8 ∧ busRead 0x0000#16 loaded.sfc = 0x00#8 ∧
    busRead 0x0004#16 loaded.sfc = 0x00#8 ∧ busRead 0x0102#16 loaded.sfc = 0x00#8 ∧
    busRead 0x0101#16 loaded.sfc = 0x01#8 := by decide
/-- V-BUS-2 and V-BUS-6. -/
theorem test_bus_writes :
    sfcOf (busWrite 0x0001#16 0x00#8 loaded) = some loaded.sfc ∧
    (sfcOf (busWrite 0x001D#16 0xC0#8 State.reset)).map (·.flt) = some 0x00C00000#32 := by decide
/-- V-BUS-7: 512 received bytes. -/
theorem test_rx_length :
    let d := { Sfc.reset with rx := List.replicate 512 0x01#8 }
    busRead 0x0009#16 d = 0x00#8 ∧ busRead 0x000A#16 d = 0x02#8 := by
  refine ⟨(congrArg lengthLow (List.length_replicate (n := 512))).trans rfl,
    (congrArg lengthHigh (List.length_replicate (n := 512))).trans rfl⟩
/-- V-PORT-1, its second character. -/
theorem test_tag_port :
    (sfcOf (busWrite 0x0004#16 0x32#8 (at_ { Sfc.reset with
      tag := [0x42, 0x43, 0x44, 0x45, 0x46, 0x47, 0x48, 0x31] } []))).map (·.tag) =
      some [0x43, 0x44, 0x45, 0x46, 0x47, 0x48, 0x31, 0x32] := by decide
/-- R164 and R180: power-on reset keeps the parameters and the answers already given. -/
theorem test_power_on :
    step { overflown with bus := { pending := [.powerOn], replies := [0x05] } } =
      .next { cfg := overflown.cfg, sfc := Sfc.reset, bus := { pending := [], replies := [0x05] } } := rfl
/-- A word given with `withFetchWord` is the next step's command: V-CTL-5. -/
theorem test_withFetchWord :
    step (State.reset.withFetchWord 8 0x10) = .next { State.reset with sfc := { Sfc.reset with res := 0x01 } } := rfl

/-! ## Witnesses -/

theorem witness_CommandDecodeEncodeAgree :
    (Instr.badcmd 0x10#8).WellFormed ∧ Instr.fdec.WellFormed ∧ decode [0x04#8, 0x10#8] = .ok (.fdec, [0x10#8]) :=
  ⟨rfl, rfl, rfl⟩

theorem witness_ReservedCodesOnlySetBadCommand :
    (decodeOp 0x07#8 = .badcmd 0x07#8 ∧ decodeOp 0x0C#8 = .badcmd 0x0C#8 ∧ decodeOp 0x0E#8 = .badcmd 0x0E#8 ∧
      decodeOp 0x10#8 = .badcmd 0x10#8 ∧ decodeOp 0xFF#8 = .badcmd 0xFF#8) ∧
    decodeOp 0x06#8 ≠ .badcmd 0x06#8 ∧ decodeOp 0x0B#8 ≠ .badcmd 0x0B#8 ∧ decodeOp 0x0F#8 ≠ .badcmd 0x0F#8 := by
  decide

theorem witness_TransactionWordsRoundTrip :
    decodeProgram [0x01000001#32, 0x00FFFF00#32] = some [.write 0x0000#16 0x01#8, .read 0xFFFF#16] := by decide

theorem witness_RegisterMapIsOneToOne :
    addressOf (.dataWin 255) = some 0x08FF#16 ∧ locate 0x08FF#16 ≠ .unmapped ∧ locate 0x0900#16 = .unmapped ∧
    locate 0x003F#16 = .hexo 7 ∧ locate 0x0040#16 = .unmapped ∧ locate 0x00FF#16 = .unmapped ∧
    locate 0x0100#16 = .bodyWin 0 ∧ locate 0x01FF#16 = .bodyWin 255 ∧ locate 0x0200#16 = .txWin 0 ∧
    locate 0x03FF#16 = .txWin 511 ∧ locate 0x0400#16 = .rxWin 0 ∧ locate 0x07FF#16 = .rxWin 1023 ∧
    locate 0x0800#16 = .dataWin 0 ∧ locate 0x001B#16 = .unmapped ∧ locate 0x001C#16 = .flt 0 ∧
    locate 0x001F#16 = .flt 3 ∧ locate 0x0020#16 = .paddr 0 ∧ locate 0x0025#16 = .paddr 5 ∧
    locate 0x0026#16 = .unmapped ∧ locate 0x0027#16 = .unmapped ∧ locate 0x0028#16 = .tag 0 := by decide

theorem witness_StepRunsTheDecodedCommand :
    let s := at_ loaded.sfc [cmdWrite 0x03#8, .powerOn]
    s.bus.pending = .access (.write 0x0000#16 0x03#8) :: [.powerOn] ∧ decode [0x03#8] = .ok (.fenc, []) :=
  ⟨rfl, rfl⟩

/-- Every case of the bus write, at the borders of the FLT case. -/
theorem witness_BusWriteDoesExactlyItsCase :
    let f := fun a => sfcOf (step (at_ loaded.sfc [busWriteEvent a 0x41#8]))
    (at_ loaded.sfc [busWriteEvent 0x0006#16 0x41#8]).bus.pending = .access (.write 0x0006#16 0x41#8) :: [] ∧
    f 0x0000#16 = some { loaded.sfc with res := 0x01 } ∧
    f 0x0004#16 = some { loaded.sfc with tag := [0x38, 0x34, 0x37, 0x38, 0x30, 0x31, 0x30, 0x41] } ∧
    f 0x0006#16 = some { loaded.sfc with body := [0x82, 0x01, 0x41] } ∧
    (f 0x0008#16).map (·.rx.length) = some 18 ∧
    f 0x000B#16 = some { loaded.sfc with hexb := [0x33, 0x46, 0x43, 0x41] } ∧
    f 0x001B#16 = some loaded.sfc ∧
    f 0x001C#16 = some { loaded.sfc with flt := 0x41C00000 } ∧
    f 0x001D#16 = some { loaded.sfc with flt := 0x3F410000 } ∧
    f 0x001E#16 = some { loaded.sfc with flt := 0x3FC04100 } ∧
    f 0x001F#16 = some { loaded.sfc with flt := 0x3FC00041 } ∧
    f 0x0020#16 = some loaded.sfc ∧ f 0xFFFF#16 = some loaded.sfc := by decide

theorem witness_BusReadAnswersTheMapValueWithoutEffect :
    let s := at_ loaded.sfc [busReadEvent 0x0019#16]
    s.bus.pending = .access (.read 0x0019#16) :: [] ∧
    step s = .next { s with bus := { pending := [], replies := [0x0E] } } := ⟨rfl, rfl⟩

theorem witness_ReadsBeyondTheLengthAnswerZero :
    loaded.sfc.hexb.length ≤ (3 : Fin 8).val ∧ busRead 0x0032#16 loaded.sfc = 0x43#8 ∧
    busRead 0x0033#16 loaded.sfc = 0x00#8 ∧ loaded.sfc.body.length ≤ (255 : Fin 256).val ∧
    loaded.sfc.tx.length ≤ (8 : Fin 512).val ∧ loaded.sfc.rx.length ≤ (1023 : Fin 1024).val ∧
    loaded.sfc.data.length ≤ (5 : Fin 256).val ∧ Sfc.reset.tag.length ≤ (0 : Fin 8).val := by decide

/-- An unmapped address, a read-only one on either side of FLT's, and the last address of all. -/
theorem witness_UnmappedAndReadOnlyAccessesAreHarmless :
    ∀ a ∈ [0x0001#16, 0x0003#16, 0x0005#16, 0x001B#16, 0x0020#16, 0x0900#16, 0xFFFF#16],
      a ≠ 0x0000#16 ∧ a ≠ 0x0004#16 ∧ a ≠ 0x0006#16 ∧ a ≠ 0x0008#16 ∧ a ≠ 0x000B#16 ∧
      ¬ (0x001C ≤ a.toNat ∧ a.toNat ≤ 0x001F) ∧
      (at_ loaded.sfc [busWriteEvent a 0x41#8]).bus.pending = .access (.write a 0x41#8) :: [] := by
  simp [at_]

theorem witness_LengthRegistersGiveTheLengths : loaded.Inv ∧ overflown.Inv := ⟨loaded_inv, overflown_inv⟩

/-- The bits beside FLT1's byte, and the two bytes at the ends. -/
theorem witness_FltBytesAreWrittenIndependently :
    (15 < 24 - 8 * (1 : Fin 4).val ∨ 32 - 8 * (1 : Fin 4).val ≤ 15) ∧
    (24 < 24 - 8 * (1 : Fin 4).val ∨ 32 - 8 * (1 : Fin 4).val ≤ 24) ∧
    (23 < 24 - 8 * (0 : Fin 4).val ∨ 32 - 8 * (0 : Fin 4).val ≤ 23) ∧
    (8 < 24 - 8 * (3 : Fin 4).val ∨ 32 - 8 * (3 : Fin 4).val ≤ 8) := by decide

theorem witness_TagPortKeepsTheLastEight :
    8 ≤ (List.replicate 8 0x41#8).length ∧ State.reset.sfc.tag = [] ∧ (List.replicate 7 0x41#8).length < 8 := by decide

theorem witness_BodyPortAppendsUntilFull :
    loaded.sfc.body.length < loaded.cfg.bodyMax ∧ overflown.cfg.bodyMax ≤ overflown.sfc.body.length ∧
    overflown.sfc.body.length ≤ overflown.cfg.bodyMax ∧ overflown.sfc.bodyOvf = true ∧
    (let s := overflown.give [cmdWrite 0x0A#8]
     s.sfc.bodyOvf = true ∧ s.bus.pending = .access (.write 0x0000#16 0x0A#8) :: [] ∧
       Access.write 0x0000#16 0x0A#8 ≠ .write 0x0000#16 0x09#8 ∧
       Access.write 0x0000#16 0x0A#8 ≠ .write 0x0000#16 0x0F#8 ∧ ∃ t, step s = .next t) :=
  ⟨by decide, by decide, by decide, rfl, rfl, rfl, by decide, by decide, _, rfl⟩

theorem witness_RxPortAppendsUntilFull :
    loaded.sfc.rx.length < loaded.cfg.rxMax ∧ overflown.cfg.rxMax ≤ overflown.sfc.rx.length ∧
    overflown.sfc.rx.length ≤ overflown.cfg.rxMax ∧ (sfcOf (exec .fdec loaded)).isSome = true := by decide

theorem witness_HexPortAppendsUpToEight :
    loaded.sfc.hexb.length < 8 ∧ 8 ≤ overflown.sfc.hexb.length ∧ overflown.sfc.hexOvf = true := by decide

theorem witness_BadCommandOnlySetsRes :
    (Instr.badcmd 0x07#8).WellFormed ∧ (Instr.badcmd 0x10#8).WellFormed ∧ (Instr.badcmd 0xFF#8).WellFormed := by decide

theorem witness_BothResetsLeaveTheResetTuple :
    (at_ loaded.sfc [.powerOn, .powerOn]).bus.pending = .powerOn :: [.powerOn] := rfl

theorem witness_PackRegroupsTheSymbols :
    State.reset.sfc.tag.length ≠ 8 ∧ loaded.sfc.tag = [0x32, 0x38, 0x34, 0x37, 0x38, 0x30, 0x31, 0x30] := by decide

theorem witness_TagsPackEquallyWhenSymbolsAgree :
    (List.replicate 8 0x40#8).length = 8 ∧ (List.replicate 8 0x00#8).length = 8 ∧
    packTag (List.replicate 8 0x40#8) = packTag (List.replicate 8 0x00#8) := by decide

theorem witness_ChecksumSkipsOnlyTheLeadingSync : 0x12#8 ≠ 0xFF#8 := by decide

/-- The three cases of the append law, the exception at its border (V-CSUM-9). -/
theorem witness_ChecksumLaws :
    ¬ ((∀ x ∈ [0xFF#8], x = 0xFF#8) ∧ 0x12#8 = 0xFF#8) ∧ ¬ ((∀ x ∈ [0x12#8], x = 0xFF#8) ∧ 0xFF#8 = 0xFF#8) ∧
    (∀ x ∈ [0xFF#8], x = 0xFF#8) ∧ loaded.sfc.bodyOvf = false ∧ (sfcOf (exec .fenc loaded)).isSome = true := by decide

theorem witness_CsumChecksTheBody : overflown.sfc.bodyOvf = true ∧ loaded.sfc.bodyOvf = false := by decide

theorem witness_FencBuildsTheFrame :
    overflown.sfc.bodyOvf = true ∧ loaded.Inv ∧ loaded.sfc.bodyOvf = false ∧ ∃ t, exec .fenc loaded = .next t :=
  ⟨rfl, loaded_inv, rfl, _, rfl⟩

theorem witness_TransmitWindowShowsTheFrame :
    loaded.Inv ∧ loaded.sfc.bodyOvf = false ∧ loaded.sfc.body[1]? = some 0x01#8 ∧ ∃ t, exec .fenc loaded = .next t :=
  ⟨loaded_inv, rfl, rfl, _, rfl⟩

theorem witness_StripRemovesEverySync : 0x00#8 ≠ 0xFF#8 := by decide

/-- The four cases: seven and eight bytes left, a byte count one too large, exact, and with bytes to spare. -/
theorem witness_FdecParsesTheStrippedResponse :
    overflown.sfc.rxOvf = true ∧ loaded.sfc.rxOvf = false ∧
    (strip [0x86, 0x01, 0x02, 0x03, 0x04, 0x05, 0x06, 0xFF]).length < 8 ∧
    strip overflown.sfc.rx = 0x01 :: 0x02 :: 0x03 :: 0x04 :: 0x05 :: 0x06 :: 0x07 :: 0x00 :: [] ∧
    ([] : List Byte).length < (0x01#8).toNat ∧ (0x00#8).toNat ≤ ([] : List Byte).length ∧
    strip loaded.sfc.rx = 0x86 :: 0xA1 :: 0xB2 :: 0xC3 :: 0xD4 :: 0xE5 :: 0x01 :: 0x05 ::
      [0xAB, 0x3F, 0xC0, 0x00, 0x00, 0x77] := by decide

theorem witness_FdecSeesOnlyNonSyncBytes :
    strip (0xFF :: loaded.sfc.rx) = strip loaded.sfc.rx ∧ ∃ t, exec .fdec loaded = .next t := ⟨by decide, _, rfl⟩

/-- A decode that succeeds and one that fails. -/
theorem witness_DataLengthFollowsTheByteCount :
    loaded.sfc.rxOvf = false ∧ (sfcOf (exec .fdec loaded)).map (·.res) = some 0x00#8 ∧
    Sfc.reset.rxOvf = false ∧ (sfcOf (exec .fdec State.reset)).map (·.res) = some 0x05#8 := by decide

theorem witness_FrameReceivedBackDecodesToItsBody :
    let body : List Byte := 0x82 :: 0xA1 :: 0xB2 :: 0xC3 :: 0xD4 :: 0xE5 :: 0x01 :: 0x02 :: [0x09, 0x08]
    0xFF#8 ∉ body ∧ [0x09#8, 0x08#8].length = (0x02#8).toNat ∧
    (at_ { Sfc.reset with rx := frameOf body } []).sfc.rx = frameOf body ∧ Sfc.reset.rxOvf = false := by decide

/-- The borders of the three digit ranges. -/
theorem witness_HexDigitsAreAscii :
    (∀ c ∈ [0x2F#8, 0x3A#8, 0x40#8, 0x47#8, 0x60#8, 0x67#8], hexval c = none) ∧
    hexval 0x30#8 = some 0#4 ∧ hexval 0x39#8 = some 9#4 ∧ hexval 0x41#8 = some 10#4 ∧ hexval 0x46#8 = some 15#4 ∧
    hexval 0x61#8 = some 10#4 ∧ hexval 0x66#8 = some 15#4 := by decide

theorem witness_H2fReadsThePaddedHexText :
    overflown.sfc.hexOvf = true ∧ (∃ c ∈ [0x33#8, 0x47#8], hexval c = none) ∧ loaded.sfc.hexOvf = false ∧
    (loaded.sfc.hexb ++ List.replicate (8 - loaded.sfc.hexb.length) 0x30#8).map hexval =
      [some 3, some 15, some 12, some 0, some 0, some 0, some 0, some 0] := by decide

/-- Each code is left by some command from a state with the invariant. -/
theorem witness_ResultCodesHaveTheirCause :
    loaded.Inv ∧ overflown.Inv ∧
    (sfcOf (exec .fdec loaded)).map (·.res) = some 0x00#8 ∧
    (sfcOf (exec (.badcmd 0x07) loaded)).map (·.res) = some 0x01#8 ∧
    (sfcOf (exec .pack overflown)).map (·.res) = some 0x02#8 ∧
    (sfcOf (exec .fenc overflown)).map (·.res) = some 0x03#8 ∧
    (sfcOf (exec .fdec overflown)).map (·.res) = some 0x04#8 ∧
    (sfcOf (exec .h2f overflown)).map (·.res) = some 0x07#8 :=
  ⟨loaded_inv, overflown_inv, by decide, by decide, by decide, by decide, by decide, by decide⟩

theorem witness_FirstFailureInOrderIsReported : ReservedOp 0x07#8 ∧ ReservedOp 0x10#8 ∧ ReservedOp 0xFF#8 := by decide

/-- A failure of each kind that R163 lists. -/
theorem witness_FailuresWriteExactlyTheListedState :
    (∃ t, exec .pack overflown = .next t ∧ t.sfc.res ∈ [0x01#8, 0x02#8, 0x03#8, 0x04#8, 0x07#8, 0x08#8]) ∧
    (∃ t, exec .fdec State.reset = .next t ∧ t.sfc.res = 0x05#8) ∧
    (∃ t, exec .fdec (at_ { Sfc.reset with rx := [1, 2, 3, 4, 5, 6, 7, 1] } []) = .next t ∧ t.sfc.res = 0x06#8) :=
  ⟨⟨_, rfl, by decide⟩, ⟨_, rfl, by decide⟩, ⟨_, rfl, by decide⟩⟩

theorem witness_ResetMeetsTheInvariant : overflown.cfg.Legal := by decide

theorem witness_EveryStepKeepsTheInvariant :
    (overflown.give [cmdWrite 0x04#8]).Inv ∧ ∃ t, step (overflown.give [cmdWrite 0x04#8]) = .next t :=
  ⟨overflown_inv, _, rfl⟩

/-- A write that changes the SFC, a power-on reset that does, and a host with nothing to do. -/
theorem witness_OnlyHostWritesChangeTheSfc :
    (∃ t, step (loaded.give [cmdWrite 0x08#8]) = .next t ∧ t.sfc ≠ loaded.sfc) ∧
    (∃ t, step (loaded.give [.powerOn]) = .next t ∧ t.sfc ≠ loaded.sfc) ∧ loaded.bus.pending = [] :=
  ⟨⟨_, rfl, by decide⟩, ⟨_, rfl, by decide⟩, rfl⟩

theorem witness_OnlyCommandsChangeRes :
    (∃ t, step (loaded.give [cmdWrite 0x00#8]) = .next t ∧ t.sfc.res ≠ loaded.sfc.res) ∧
    (∃ t, step (loaded.give [.powerOn]) = .next t ∧ t.sfc.res ≠ loaded.sfc.res) :=
  ⟨⟨_, rfl, by decide⟩, ⟨_, rfl, by decide⟩⟩

theorem witness_EventsTakeEffectInOrder :
    (at_ loaded.sfc [cmdWrite 0x01#8, .powerOn]).bus.pending = cmdWrite 0x01#8 :: [.powerOn] := rfl

/-- A flag set by a port over a full buffer, and flags cleared by each of the three ways. -/
theorem witness_OverflowFlagsAreSetAndClearedOnlyAsListed :
    let full := { overflown with sfc := { overflown.sfc with bodyOvf := false, rxOvf := false, hexOvf := false } }
    (∃ t, step (full.give [busWriteEvent 0x0006#16 0x41#8]) = .next t ∧ t.sfc.bodyOvf = true) ∧
    (∃ t, step (full.give [busWriteEvent 0x0008#16 0x41#8]) = .next t ∧ t.sfc.rxOvf = true) ∧
    (∃ t, step (full.give [busWriteEvent 0x000B#16 0x41#8]) = .next t ∧ t.sfc.hexOvf = true) ∧
    (∃ t, step (overflown.give [cmdWrite 0x09#8]) = .next t ∧ t.sfc.bodyOvf = false) ∧
    (∃ t, step (overflown.give [cmdWrite 0x0F#8]) = .next t ∧ t.sfc.rxOvf = false) ∧
    (∃ t, step (overflown.give [.powerOn]) = .next t ∧ t.sfc.hexOvf = false) ∧
    overflown.cfg.bodyMax ≤ overflown.sfc.body.length ∧ overflown.cfg.rxMax ≤ overflown.sfc.rx.length ∧
    8 ≤ overflown.sfc.hexb.length :=
  ⟨⟨_, rfl, rfl⟩, ⟨_, rfl, rfl⟩, ⟨_, rfl, rfl⟩, ⟨_, rfl, rfl⟩, ⟨_, rfl, rfl⟩, ⟨_, rfl, rfl⟩, by decide, by decide,
    by decide⟩

theorem witness_OverflowIsStickyAlongEveryRun :
    let evs := [busWriteEvent 0x0006#16 0x41#8, cmdWrite 0x04#8]
    overflown.Inv ∧ (∃ t, runEvents evs overflown = .next t) ∧
    cmdWrite 0x0F#8 ∉ evs ∧ HostEvent.powerOn ∉ evs ∧ cmdWrite 0x09#8 ∉ evs ∧ cmdWrite 0x0A#8 ∉ evs ∧
    cmdWrite 0x0B#8 ∉ evs ∧ overflown.sfc.bodyOvf = true ∧ overflown.sfc.rxOvf = true ∧
    overflown.sfc.hexOvf = true ∧ ∃ t, step (overflown.give [.powerOn]) = .next t ∧ t.sfc.bodyOvf = false ∧
      t.sfc.rxOvf = false ∧ t.sfc.hexOvf = false :=
  ⟨overflown_inv, ⟨_, rfl⟩, by decide, by decide, by decide, by decide, by decide, rfl, rfl, rfl, _, rfl, rfl, rfl, rfl⟩

/-- A write either side of FLT's addresses, a clear and H2F. -/
theorem witness_ResultsAreSnapshots :
    (0x001B#16 ≠ 0x0000#16 ∧ ¬ (0x001C ≤ (0x001B#16).toNat ∧ (0x001B#16).toNat ≤ 0x001F)) ∧
    (0x0020#16 ≠ 0x0000#16 ∧ ¬ (0x001C ≤ (0x0020#16).toNat ∧ (0x0020#16).toNat ≤ 0x001F)) ∧
    (∃ t, busWrite 0x0006#16 0x41#8 loaded = .next t) ∧ (∃ t, exec .clrBody loaded = .next t) ∧
    ∃ t, exec .h2f loaded = .next t :=
  ⟨by decide, by decide, ⟨_, rfl⟩, ⟨_, rfl⟩, ⟨_, rfl⟩⟩

theorem witness_CommandsDoNotConsumeTheirInputs :
    (∃ t, exec .clrTag loaded = .next t ∧ t.sfc.tag ≠ loaded.sfc.tag) ∧
    (∃ t, exec .clrBody loaded = .next t ∧ t.sfc.body ≠ loaded.sfc.body) ∧
    (∃ t, exec .clrRx loaded = .next t ∧ t.sfc.rx ≠ loaded.sfc.rx) ∧
    (∃ t, exec .srst loaded = .next t ∧ t.sfc.hexb ≠ loaded.sfc.hexb) :=
  ⟨⟨_, rfl, by decide⟩, ⟨_, rfl, by decide⟩, ⟨_, rfl, by decide⟩, ⟨_, rfl, by decide⟩⟩

/-- Addresses just outside what PACK, FDEC and CLR_TAG write. -/
theorem witness_CommandsLeaveOtherAddressesAsTheyWere :
    (∃ t, exec .pack loaded = .next t) ∧ (∃ t, exec .fdec loaded = .next t) ∧ (∃ t, exec .clrTag loaded = .next t) ∧
    (∀ a ∈ [0x001F#16, 0x0026#16], a ≠ 0x0001#16 ∧ ¬ (0x0020 ≤ a.toNat ∧ a.toNat ≤ 0x0025)) ∧
    (∀ a ∈ [0x000F#16, 0x001B#16, 0x07FF#16, 0x0900#16], a ≠ 0x0001#16 ∧
      ¬ (0x0010 ≤ a.toNat ∧ a.toNat ≤ 0x001A) ∧ ¬ (0x0800 ≤ a.toNat ∧ a.toNat ≤ 0x08FF)) ∧
    (∀ a ∈ [0x0027#16, 0x0030#16], a ≠ 0x0001#16 ∧ a ≠ 0x0005#16 ∧ ¬ (0x0028 ≤ a.toNat ∧ a.toNat ≤ 0x002F)) :=
  ⟨⟨_, rfl⟩, ⟨_, rfl⟩, ⟨_, rfl⟩, by simp, by simp, by simp⟩

/-- A body and a response as long as the smallest legal instance holds. -/
theorem witness_WindowsShowTheBytesInWireOrder :
    overflown.cfg.Legal ∧ [0xFF#8].length ≤ overflown.cfg.bodyMax ∧ [0xFF#8][0]? = some 0xFF#8 ∧
    [0xFF#8, 1, 2, 3, 4, 5, 6, 7].length ≤ overflown.cfg.rxMax ∧
    [0xFF#8, 1, 2, 3, 4, 5, 6, 7][7]? = some 0x07#8 := by decide

theorem witness_LatencyIsUnobservable :
    ∃ t, runEvents [cmdWrite 0x01#8, busReadEvent 0x0020#16] loaded = .next t := ⟨_, rfl⟩

end Sys2Proof.Tests
end

/-! ## Hex text: what `hexchar` and `hexval` give on each range of R12 -/

section
namespace Sys2Proof.Proofs.HexText

open Sys2Proof Sys2Proof.Machine

theorem hexchar_digit (hc : HexCase) {k : Nat} (hk : k < 10) :
    hexchar hc (BitVec.ofNat 4 k) = BitVec.ofNat 8 (0x30 + k) := by
  have hn : (BitVec.ofNat 4 k).toNat = k := Nat.mod_eq_of_lt (by omega)
  simp only [hexchar, hn, if_pos hk]

theorem toNat_letterNibble {k : Nat} (hk : k < 6) : (BitVec.ofNat 4 (10 + k)).toNat = 10 + k :=
  Nat.mod_eq_of_lt (by omega)

theorem hexchar_upper {k : Nat} (hk : k < 6) :
    hexchar .upper (BitVec.ofNat 4 (10 + k)) = BitVec.ofNat 8 (0x41 + k) := by
  have hletter : ¬ 10 + k < 10 := by omega
  simp only [hexchar, toNat_letterNibble hk, if_neg hletter, Nat.add_sub_cancel_left]

theorem hexchar_lower {k : Nat} (hk : k < 6) :
    hexchar .lower (BitVec.ofNat 4 (10 + k)) = BitVec.ofNat 8 (0x61 + k) := by
  have hletter : ¬ 10 + k < 10 := by omega
  simp only [hexchar, toNat_letterNibble hk, if_neg hletter, Nat.add_sub_cancel_left]

/-- A byte that `hexchar` writes for a nibble, in either letter case, is read back as that nibble. -/
theorem hexval_of_hexchar_eq {hc : HexCase} {n : Nibble} {c : Byte} (h : hexchar hc n = c) :
    hexval c = some n :=
  h ▸ hexval_hexchar hc n

theorem hexval_eq_none_of_not_digit {c : Byte} (hdigit : ¬ (0x30 ≤ c.toNat ∧ c.toNat ≤ 0x39))
    (hupper : ¬ (0x41 ≤ c.toNat ∧ c.toNat ≤ 0x46)) (hlower : ¬ (0x61 ≤ c.toNat ∧ c.toNat ≤ 0x66)) :
    hexval c = none := by
  simp only [hexval, if_neg hdigit, if_neg hupper, if_neg hlower]

/-- Settles O36: the accepted ranges are what `hexchar` writes, read back; outside them `hexval` has no value. -/
theorem hexDigitsAreAscii : Obligations.HexDigitsAreAscii :=
  ⟨fun _ hk => hexval_of_hexchar_eq (hexchar_digit .upper hk),
    fun _ hk => ⟨hexval_of_hexchar_eq (hexchar_upper hk), hexval_of_hexchar_eq (hexchar_lower hk)⟩,
    fun _ => hexval_eq_none_of_not_digit,
    fun hc _ hk => hexchar_digit hc hk,
    fun _ hk => ⟨hexchar_upper hk, hexchar_lower hk⟩⟩

end Sys2Proof.Proofs.HexText
end

/-! ## The length registers: what they read back as, and the bounds that make this the length (R39, R56) -/

section
namespace Sys2Proof.Proofs.LengthRegisters

open Sys2Proof Sys2Proof.Machine

/-- A length below 256 fits its one register. -/
theorem toNat_lengthLow {n : Nat} (h : n < 256) : (lengthLow n).toNat = n :=
  Nat.mod_eq_of_lt h

theorem lengthLow_eq_extractLsb' (n : Nat) : lengthLow n = (BitVec.ofNat 10 n).extractLsb' 0 8 := by
  rw [lengthLow, ← BitVec.setWidth_ofNat_of_le (by decide : 8 ≤ 10), BitVec.setWidth_eq_extractLsb' (by decide)]

theorem extractLsb'_lengthHigh (n : Nat) :
    (lengthHigh n).extractLsb' 0 2 = (BitVec.ofNat 10 n).extractLsb' 8 2 := by
  rw [lengthHigh, BitVec.extractLsb'_setWidth_of_le (by decide), BitVec.extractLsb'_eq_self]

/-- R56's value `{_H[1:0], _L}` is the length modulo 1024: the two fields are the halves of one 10-bit word. -/
theorem lengthHigh_append_lengthLow (n : Nat) :
    (lengthHigh n).extractLsb' 0 2 ++ lengthLow n = BitVec.ofNat 10 n := by
  rw [lengthLow_eq_extractLsb', extractLsb'_lengthHigh,
    BitVec.extractLsb'_append_extractLsb'_eq_extractLsb' (Nat.zero_add 8).symm, BitVec.extractLsb'_eq_self]

/-- A length below 1024 fits its pair of registers. -/
theorem toNat_lengthHigh_append_lengthLow {n : Nat} (h : n < 1024) :
    ((lengthHigh n).extractLsb' 0 2 ++ lengthLow n).toNat = n := by
  rw [lengthHigh_append_lengthLow]
  exact Nat.mod_eq_of_lt h

/-- Bits 7:2 of an `_H` register read 0, whatever the length. -/
theorem lengthHigh_upper_bits (n : Nat) : (lengthHigh n).extractLsb' 2 6 = 0#6 := by
  ext k hk
  simp [lengthHigh]

/-- TX is empty or a frame of a body that fits, six bytes longer than it (R29). -/
theorem tx_length_le {c : Config} {d : Sfc} (h : d.Inv c) : d.tx.length ≤ c.bodyMax + 6 := by
  rcases h.tx_frame with hempty | ⟨b, hb, hframe⟩
  · simp [hempty]
  · rw [hframe, frameOf_length]
    omega

/-- DATA is empty or as long as the byte DEC_BCNT says (R33). -/
theorem data_length_lt {c : Config} {d : Sfc} (h : d.Inv c) : d.data.length < 256 := by
  rcases h.data_len with hempty | hcount
  · simp [hempty]
  · rw [hcount]
    exact d.decBcnt.isLt

/-- Settles O12: the invariant bounds the lengths by what their registers hold, BODY and TX by `BODY_MAX` at most 255,
RX and SLEN by `RX_MAX` at most 1023. At each of these addresses `busRead` evaluates to `lengthLow` or `lengthHigh` of
its length, so the lemmas about those two apply as they stand. -/
theorem lengthRegistersGiveTheLengths : Obligations.LengthRegistersGiveTheLengths := by
  rintro s ⟨⟨⟨-, hbodyMax⟩, -, hrxMax⟩, hinv⟩
  have htag := hinv.tag_len
  have hbody := hinv.body_len
  have hdata := data_length_lt hinv
  have hhexb := hinv.hexb_len
  have hrx := hinv.rx_len
  have htx := tx_length_le hinv
  have hslen := hinv.slen_le
  exact ⟨toNat_lengthLow (by omega), toNat_lengthLow (by omega), toNat_lengthLow hdata, toNat_lengthLow (by omega),
    toNat_lengthHigh_append_lengthLow (by omega), toNat_lengthHigh_append_lengthLow (by omega),
    toNat_lengthHigh_append_lengthLow (by omega),
    lengthHigh_upper_bits _, lengthHigh_upper_bits _, lengthHigh_upper_bits _⟩

end Sys2Proof.Proofs.LengthRegisters
end

/-! ## The register map read backwards, and the addresses whose write does nothing (R51, R54) -/

section
namespace Sys2Proof.Proofs.RegisterMap

open Sys2Proof Sys2Proof.Machine

/-- A window's base and index give the address back. -/
theorem addressOf_locateWindow (n : Nat) :
    locateWindow n = .unmapped ∨ addressOf (locateWindow n) = some (BitVec.ofNat 16 n) := by
  have key {base : Nat} (h : base ≤ n) : some (BitVec.ofNat 16 (base + (n - base))) = some (BitVec.ofNat 16 n) := by
    rw [Nat.add_sub_of_le h]
  unfold locateWindow
  iterate 10
    split
    next h => exact .inr (key h.1)
  exact .inl rfl

/-- A mapped address is the one address of the location it names (R51). -/
theorem addressOf_locate (a : Addr) : locate a = .unmapped ∨ addressOf (locate a) = some a := by
  have hnat : BitVec.ofNat 16 a.toNat = a := (BitVec.ofNat_toNat 16 a).trans a.setWidth_eq
  unfold locate
  split
  case h_22 => simpa only [hnat] using addressOf_locateWindow a.toNat
  all_goals
    rename_i hn
    rw [← hnat, hn]
    exact .inr rfl

/-- An address other than a location's own does not name it. -/
theorem locate_ne {a b : Addr} {l : Loc} (hl : addressOf l = some b) (h : a ≠ b) : locate a ≠ l := by
  rintro rfl
  rcases addressOf_locate a with hunmapped | ha
  · rw [hunmapped] at hl; cases hl
  · exact h (Option.some.inj (ha.symm.trans hl))

theorem locateWindow_eq_unmapped {n : Nat}
    (h : n = 0x001B ∨ n = 0x0026 ∨ n = 0x0027 ∨ (0x0040 ≤ n ∧ n ≤ 0x00FF) ∨ 0x0900 ≤ n) :
    locateWindow n = .unmapped := by
  unfold locateWindow
  iterate 10
    rw [dif_neg (by omega)]

/-- The addresses R54 lists name no location. -/
theorem locate_eq_unmapped {a : Addr} (h : a.toNat = 0x0003 ∨ a.toNat = 0x001B ∨ a.toNat = 0x0026 ∨
    a.toNat = 0x0027 ∨ (0x0040 ≤ a.toNat ∧ a.toNat ≤ 0x00FF) ∨ 0x0900 ≤ a.toNat) : locate a = .unmapped := by
  rcases h with h3 | h
  · have ha : a = 0x0003#16 := BitVec.eq_of_toNat_eq h3
    rw [ha]
    rfl
  · rw [locate_of_ge (by omega), locateWindow_eq_unmapped h]

theorem busRead_unmapped {a : Addr} (h : a.toNat = 0x0003 ∨ a.toNat = 0x001B ∨ a.toNat = 0x0026 ∨
    a.toNat = 0x0027 ∨ (0x0040 ≤ a.toNat ∧ a.toNat ≤ 0x00FF) ∨ 0x0900 ≤ a.toNat) (d : Sfc) :
    busRead a d = 0x00#8 :=
  busRead_of_locate (locate_eq_unmapped h) d

/-- The four ports and FLT's bytes are the only locations that store what is written (R54, R55). -/
theorem writeLoc_eq_self {l : Loc} (htag : l ≠ .tagIn) (hbody : l ≠ .bodyIn) (hrx : l ≠ .rxIn)
    (hhex : l ≠ .hexIn) (hflt : ∀ i, l ≠ .flt i) (c : Config) (v : Byte) (d : Sfc) : writeLoc c l v d = d := by
  cases l with
  | tagIn => exact absurd rfl htag
  | bodyIn => exact absurd rfl hbody
  | rxIn => exact absurd rfl hrx
  | hexIn => exact absurd rfl hhex
  | flt i => exact absurd rfl (hflt i)
  | _ => rfl

/-- A write to an unmapped or a read-only address changes nothing (R54). -/
theorem busWrite_ignored {a : Addr} (hcmd : a ≠ 0x0000#16) (htag : a ≠ 0x0004#16) (hbody : a ≠ 0x0006#16)
    (hrx : a ≠ 0x0008#16) (hhex : a ≠ 0x000B#16) (hflt : ¬ (0x001C ≤ a.toNat ∧ a.toNat ≤ 0x001F))
    (v : Byte) (s : State) : busWrite a v s = .next s := by
  have hfltByte (i : Fin 4) : a ≠ BitVec.ofNat 16 (0x001C + i.val) := by
    rintro rfl
    rw [toNat_indexed 0x001C i (by decide)] at hflt
    omega
  rw [busWrite_of_ne_cmd (locate_ne rfl hcmd), writeLoc_eq_self (locate_ne rfl htag) (locate_ne rfl hbody)
    (locate_ne rfl hrx) (locate_ne rfl hhex) fun i => locate_ne rfl (hfltByte i)]
  rfl

end Sys2Proof.Proofs.RegisterMap
end

/-! ## FLT's bytes: a written byte with the bits that stay written out around it (R131) -/

section
namespace Sys2Proof.Proofs.FltBytes

open Sys2Proof Sys2Proof.Machine

/-- Replacing a field puts the value between the bits above it and the bits below it. -/
theorem putField_eq_append {n m lo hi : Nat} (w : BitVec n) (v : BitVec m) (h : hi + m + lo = n) :
    putField w lo v = (w.extractLsb' (lo + m) hi ++ v ++ w.extractLsb' 0 lo).cast h := by
  apply BitVec.eq_of_getLsbD_eq
  intro k hk
  rw [getLsbD_putField, BitVec.getLsbD_cast, BitVec.getLsbD_append, BitVec.getLsbD_append,
    BitVec.getLsbD_extractLsb', BitVec.getLsbD_extractLsb']
  by_cases hlo : k < lo
  · simp [hlo, Nat.not_le.mpr hlo]
  · by_cases hm : k - lo < m
    · have hfield : lo ≤ k ∧ k < lo + m := by omega
      simp [hlo, hm, hfield, hk]
    · have hfield : ¬ (lo ≤ k ∧ k < lo + m) := by omega
      have hhi : k - lo - m < hi := by omega
      have hbit : lo + m + (k - lo - m) = k := by omega
      simp [hlo, hm, hfield, hhi, hbit]

theorem setFltByte_zero (w : Word32) (v : Byte) : setFltByte w 0 v = v ++ w.extractLsb' 0 24 :=
  (putField_eq_append (hi := 0) w v rfl).trans
    (congrArg (· ++ w.extractLsb' 0 24) (BitVec.zero_width_append (w.extractLsb' 32 0) v))

theorem setFltByte_one (w : Word32) (v : Byte) :
    setFltByte w 1 v = w.extractLsb' 24 8 ++ v ++ w.extractLsb' 0 16 :=
  putField_eq_append (hi := 8) w v rfl

theorem setFltByte_two (w : Word32) (v : Byte) :
    setFltByte w 2 v = w.extractLsb' 16 16 ++ v ++ w.extractLsb' 0 8 :=
  putField_eq_append (hi := 16) w v rfl

theorem setFltByte_three (w : Word32) (v : Byte) : setFltByte w 3 v = w.extractLsb' 8 24 ++ v :=
  (putField_eq_append (hi := 24) w v rfl).trans (BitVec.append_zero_width _ _)

end Sys2Proof.Proofs.FltBytes
end

/-! ## One bus access: what a step does with it, address by address (R52 to R55) -/

section
namespace Sys2Proof.Proofs.BusAccess

open Sys2Proof Sys2Proof.Machine Sys2Proof.Proofs.RegisterMap Sys2Proof.Proofs.FltBytes

theorem step_read {s : State} {a : Addr} {rest : List HostEvent} (h : s.bus.pending = .access (.read a) :: rest) :
    step s = .next ((s.withPending rest).reply (busRead a s.sfc)) := by
  rw [step, serveNext, h]
  rfl

theorem step_write {s : State} {a : Addr} {v : Byte} {rest : List HostEvent}
    (h : s.bus.pending = .access (.write a v) :: rest) : step s = busWrite a v (s.withPending rest) := by
  rw [step, serveNext, h]
  rfl

theorem runEvents_read_cons (a : Addr) (evs : List HostEvent) (s : State) :
    runEvents (busReadEvent a :: evs) s = runEvents evs ((s.withPending evs).reply (busRead a s.sfc)) :=
  runEvents_cons rfl rfl

/-- Settles O8: at each address with a write effect `busWrite` evaluates to that effect, and FLT's bytes are the
fields of `setFltByte`; every other address ignores the write. -/
theorem busWriteDoesExactlyItsCase : Obligations.BusWriteDoesExactlyItsCase := by
  intro s a v rest hp t
  rw [step_write hp]
  by_cases hcmd : a = 0x0000#16
  · rw [if_pos hcmd, hcmd]; rfl
  rw [if_neg hcmd]
  by_cases htag : a = 0x0004#16
  · rw [if_pos htag, htag]; rfl
  rw [if_neg htag]
  by_cases hbody : a = 0x0006#16
  · rw [if_pos hbody, hbody]; rfl
  rw [if_neg hbody]
  by_cases hrx : a = 0x0008#16
  · rw [if_pos hrx, hrx]; rfl
  rw [if_neg hrx]
  by_cases hhex : a = 0x000B#16
  · rw [if_pos hhex, hhex]; rfl
  rw [if_neg hhex]
  by_cases hflt0 : a = 0x001C#16
  · rw [if_pos hflt0, hflt0, ← setFltByte_zero]; rfl
  rw [if_neg hflt0]
  by_cases hflt1 : a = 0x001D#16
  · rw [if_pos hflt1, hflt1, ← setFltByte_one]; rfl
  rw [if_neg hflt1]
  by_cases hflt2 : a = 0x001E#16
  · rw [if_pos hflt2, hflt2, ← setFltByte_two]; rfl
  rw [if_neg hflt2]
  by_cases hflt3 : a = 0x001F#16
  · rw [if_pos hflt3, hflt3, ← setFltByte_three]; rfl
  rw [if_neg hflt3]
  have hflt : ¬ (0x001C ≤ a.toNat ∧ a.toNat ≤ 0x001F) := by bv_omega
  exact busWrite_ignored hcmd htag hbody hrx hhex hflt v _

/-- Bits 9:8 of a length, as the number they are. -/
theorem lengthHigh_eq_ofNat (n : Nat) : lengthHigh n = BitVec.ofNat 8 (n / 256 % 4) := by
  apply BitVec.eq_of_toNat_eq
  simp only [lengthHigh, BitVec.toNat_setWidth, BitVec.extractLsb'_toNat, BitVec.toNat_ofNat, Nat.shiftRight_eq_div_pow]
  omega

/-- Settles O9: a read only adds its answer, so a second read of the address sees the same SFC; the register map's
rows hold by evaluation at a fixed address and by the window's `locate` lemma at an indexed one. -/
theorem busReadAnswersTheMapValueWithoutEffect : Obligations.BusReadAnswersTheMapValueWithoutEffect := by
  refine ⟨fun s a rest hp => step_read hp, fun s a => ⟨busRead a s.sfc, ?_⟩, fun d => ?_⟩
  · rw [runEvents_read_cons, runEvents_read_cons, runEvents_nil]
    simp [State.reply, State.withPending]
  · exact ⟨rfl, rfl, rfl, rfl, rfl, rfl, rfl, rfl, rfl, lengthHigh_eq_ofNat _, rfl, rfl, rfl, rfl,
      lengthHigh_eq_ofNat _, rfl,
      fun i => busRead_of_locate (locate_decAddr i) d, rfl, rfl, rfl, rfl, lengthHigh_eq_ofNat _, rfl, rfl, rfl, rfl,
      fun i => busRead_of_locate (locate_paddr i) d, fun i => busRead_of_locate (locate_tag i) d,
      fun i => busRead_of_locate (locate_hexb i) d, fun i => busRead_of_locate (locate_hexo i) d,
      fun i => busRead_of_locate (locate_bodyWin i) d, fun i => busRead_of_locate (locate_txWin i) d,
      fun i => busRead_of_locate (locate_rxWin i) d, fun i => busRead_of_locate (locate_dataWin i) d,
      fun a h => busRead_unmapped h d⟩

/-- Settles O10: each of the six windows reads `byteAt` of its buffer, which is 0x00 from the length on. -/
theorem readsBeyondTheLengthAnswerZero : Obligations.ReadsBeyondTheLengthAnswerZero := fun d =>
  ⟨fun i h => (busRead_of_locate (locate_tag i) d).trans (byteAt_of_length_le h),
    fun i h => (busRead_of_locate (locate_hexb i) d).trans (byteAt_of_length_le h),
    fun i h => (busRead_of_locate (locate_bodyWin i) d).trans (byteAt_of_length_le h),
    fun i h => (busRead_of_locate (locate_txWin i) d).trans (byteAt_of_length_le h),
    fun i h => (busRead_of_locate (locate_rxWin i) d).trans (byteAt_of_length_le h),
    fun i h => (busRead_of_locate (locate_dataWin i) d).trans (byteAt_of_length_le h)⟩

/-- Settles O11: unmapped addresses read 0x00, a write there or to a read-only address is ignored, and a read and a
write each answer a next state. -/
theorem unmappedAndReadOnlyAccessesAreHarmless : Obligations.UnmappedAndReadOnlyAccessesAreHarmless := by
  refine ⟨fun d a h => busRead_unmapped h d, fun s a v rest hp hcmd htag hbody hrx hhex hflt => ?_,
    fun s x rest hp => ?_⟩
  · rw [step_write hp, busWrite_ignored hcmd htag hbody hrx hhex hflt]
    rfl
  · cases x with
    | read a => exact ⟨_, step_read hp⟩
    | write a v =>
      obtain ⟨d, hd⟩ := busWrite_next a v (s.withPending rest)
      exact ⟨_, (step_write hp).trans hd⟩

end Sys2Proof.Proofs.BusAccess
end

/-! ## The order of events: what an event does does not depend on what comes after it (R65) -/

section
namespace Sys2Proof.Proofs.EventOrder

open Sys2Proof Sys2Proof.Machine

/-- A bus write does the same to the SFC whatever the host has pending. -/
theorem busWrite_withPending (a : Addr) (v : Byte) (s : State) :
    ∃ d : Sfc, ∀ evs, busWrite a v (s.withPending evs) = .next ((s.withSfc d).withPending evs) := by
  by_cases ha : locate a = .cmd
  · obtain rfl := (locate_eq_cmd_iff a).1 ha
    obtain ⟨d, hd⟩ := exec_next (decodeOp v) s
    exact ⟨d, fun evs => exec_congr (s := s) (t := s.withPending evs) rfl rfl hd⟩
  · exact ⟨writeLoc s.cfg (locate a) v s.sfc, fun evs => busWrite_of_ne_cmd ha v (s.withPending evs)⟩

/-- One state `t` is what an event leaves, up to the host's list, whatever that list is; the event only adds
answers. -/
theorem runEvent_withPending (e : HostEvent) (s : State) : ∃ t : State,
    (∃ answers, t.bus.replies = s.bus.replies ++ answers) ∧
    ∀ evs, runEvent e (s.withPending evs) = .next (t.withPending evs) := by
  rcases e with (a | ⟨a, v⟩) | _
  · exact ⟨s.reply (busRead a s.sfc), ⟨_, rfl⟩, fun _ => rfl⟩
  · obtain ⟨d, hd⟩ := busWrite_withPending a v s
    exact ⟨s.withSfc d, ⟨[], (List.append_nil _).symm⟩, hd⟩
  · exact ⟨powerOnReset s, ⟨[], (List.append_nil _).symm⟩, fun _ => rfl⟩

/-- Every run of events answers a next state and only adds answers. -/
theorem runEvents_next (xs : List HostEvent) (s : State) :
    ∃ t, runEvents xs s = .next t ∧ ∃ answers, t.bus.replies = s.bus.replies ++ answers := by
  induction xs generalizing s with
  | nil => exact ⟨_, rfl, [], (List.append_nil _).symm⟩
  | cons e xs ih =>
    obtain ⟨t, ⟨first, hfirst⟩, ht⟩ := runEvent_withPending e s
    obtain ⟨u, hu, others, hothers⟩ := ih (t.withPending xs)
    refine ⟨u, (runEvents_cons (ht xs) rfl).trans hu, first ++ others, ?_⟩
    rw [hothers, State.withPending_replies, hfirst, List.append_assoc]

/-- A run of two lists of events is the run of the second from the state the first leaves. -/
theorem runEvents_append {xs : List HostEvent} {s t : State} (h : runEvents xs s = .next t) (ys : List HostEvent) :
    runEvents (xs ++ ys) s = runEvents ys t := by
  induction xs generalizing s with
  | nil =>
    cases h
    rfl
  | cons e xs ih =>
    obtain ⟨u, -, hu⟩ := runEvent_withPending e s
    rw [runEvents_cons (hu xs) rfl] at h
    exact (runEvents_cons (hu (xs ++ ys)) rfl).trans (ih h)

/-- Settles O47: runs compose by `runEvents_append`, and by `runEvent_withPending` a step and the run of its event
alone leave one state up to the host's list. -/
theorem eventsTakeEffectInOrder : Obligations.EventsTakeEffectInOrder := by
  constructor
  · intro s xs ys
    obtain ⟨t, ht, -⟩ := runEvents_next xs s
    obtain ⟨u, hu, hanswers⟩ := runEvents_next ys t
    exact ⟨t, u, ht, hu, (runEvents_append ht ys).trans hu, hanswers⟩
  · intro s e rest hp
    obtain ⟨t, -, ht⟩ := runEvent_withPending e s
    have hstep : step s = .next (t.withPending rest) := by
      rw [step, serveNext, hp]
      exact ht rest
    exact ⟨_, _, hstep, rfl, runEvents_cons (ht []) rfl, rfl, rfl⟩

end Sys2Proof.Proofs.EventOrder
end

/-! ## The packed-ASCII stream as concatenations: of PADDR's six bytes, and of the eight symbols (R59, R91) -/

section
namespace Sys2Proof.Proofs.PackedStream

open Sys2Proof Sys2Proof.Machine

/-- A run of bits that ends where byte `j` ends, and the next byte after it. -/
theorem extractLsb'_append_streamByte (w : BitVec 48) (len j : Nat) (h : j < 5) :
    w.extractLsb' (40 - 8 * j) len ++ streamByte w (j + 1) = w.extractLsb' (40 - 8 * (j + 1)) (len + 8) :=
  BitVec.extractLsb'_append_extractLsb'_eq_extractLsb' (by omega)

/-- The six bytes of a stream, put together again in order, are the stream. -/
theorem streamByte_append (w : BitVec 48) :
    streamByte w 0 ++ streamByte w 1 ++ streamByte w 2 ++ streamByte w 3 ++ streamByte w 4 ++ streamByte w 5 = w := by
  have join := extractLsb'_append_streamByte w
  rw [streamByte, join 8 0 (by decide), join 16 1 (by decide), join 24 2 (by decide), join 32 3 (by decide),
    join 40 4 (by decide), BitVec.extractLsb'_eq_self]

/-- Bit `r` of symbol `q`, counted from the right, where one more symbol is put on the right. -/
theorem getLsbD_append_symbol {n r : Nat} (x : BitVec n) (y : BitVec 6) (q : Nat) (hr : r < 6) :
    (x ++ y).getLsbD (6 * q + r) = if q = 0 then y.getLsbD r else x.getLsbD (6 * (q - 1) + r) := by
  rw [BitVec.getLsbD_append]
  rcases q with _ | q
  · simp [hr]
  · have hpast : ¬ 6 * (q + 1) + r < 6 := by omega
    have hrest : 6 * (q + 1) + r - 6 = 6 * q + r := by omega
    simp [hpast, hrest]

/-- The stream of eight characters is their symbols in order (R91): bit `6 * q + r` is bit `r` of symbol `7 - q` on
both sides. -/
theorem packedStream_eq_append (c0 c1 c2 c3 c4 c5 c6 c7 : Byte) :
    packedStream [c0, c1, c2, c3, c4, c5, c6, c7] =
      symbol c0 ++ symbol c1 ++ symbol c2 ++ symbol c3 ++ symbol c4 ++ symbol c5 ++ symbol c6 ++ symbol c7 := by
  apply BitVec.eq_of_getLsbD_eq
  intro k hk
  obtain ⟨q, r, hq, hr, rfl⟩ : ∃ q r, q < 8 ∧ r < 6 ∧ k = 6 * q + r := ⟨k / 6, k % 6, by omega, by omega, by omega⟩
  have hdiv : (6 * q + r) / 6 = q := by omega
  have hmod : (6 * q + r) % 6 = r := by omega
  rw [getLsbD_packedStream _ hk, hdiv, hmod]
  simp only [getLsbD_append_symbol _ _ _ hr]
  interval_cases q <;> simp [byteAt, symbol, hr]

/-- Settles O23: both concatenations are the stream `packTag` splits. -/
theorem packedStreamIsMostSignificantFirst : Obligations.PackedStreamIsMostSignificantFirst := by
  intro c0 c1 c2 c3 c4 c5 c6 c7 p y
  exact (streamByte_append _).trans (packedStream_eq_append c0 c1 c2 c3 c4 c5 c6 c7)

end Sys2Proof.Proofs.PackedStream
end

/-! ## Transaction words: their four fields, and `decodeAccess` as the inverse of `encodeAccess` (R75) -/

section
namespace Sys2Proof.Proofs.TransactionWords

open Sys2Proof

/-- A word is R75's four fields put together exactly when those are what its bits read. -/
theorem eq_fields_iff (w : Word32) (write : Bool) (a : Addr) (data : Byte) :
    w = 0#7 ++ BitVec.ofBool write ++ a ++ data ↔ w.extractLsb' 25 7 = 0#7 ∧ w.getLsbD 24 = write ∧
      w.extractLsb' 8 16 = a ∧ w.extractLsb' 0 8 = data := by
  constructor
  · rintro rfl
    refine ⟨?_, ?_, ?_, BitVec.extractLsb'_append_eq_right⟩
    · rw [BitVec.extractLsb'_append_eq_of_le (by decide), BitVec.extractLsb'_append_eq_of_le (by decide)]
      exact BitVec.extractLsb'_append_eq_left
    · rw [BitVec.getLsbD_append, if_neg (by decide), BitVec.getLsbD_append, if_neg (by decide),
        BitVec.getLsbD_append, if_pos (by decide)]
      simp
    · rw [BitVec.extractLsb'_append_eq_of_le (by decide)]
      exact BitVec.extractLsb'_append_eq_right
  · rintro ⟨hzero, hwrite, rfl, rfl⟩
    have hbit : BitVec.ofBool write = w.extractLsb' 24 1 := by
      ext k hk
      obtain rfl : k = 0 := by omega
      simp [← hwrite]
    rw [← hzero, hbit, BitVec.extractLsb'_append_extractLsb'_eq_extractLsb' (by decide),
      BitVec.extractLsb'_append_extractLsb'_eq_extractLsb' (by decide),
      BitVec.extractLsb'_append_extractLsb'_eq_extractLsb' (by decide), BitVec.extractLsb'_eq_self]

theorem encodeAccess_write_fields (a : Addr) (v : Byte) :
    (encodeAccess (.write a v)).extractLsb' 25 7 = 0#7 ∧ (encodeAccess (.write a v)).getLsbD 24 = true ∧
    (encodeAccess (.write a v)).extractLsb' 8 16 = a ∧ (encodeAccess (.write a v)).extractLsb' 0 8 = v :=
  (eq_fields_iff _ true a v).1 rfl

theorem encodeAccess_read_fields (a : Addr) :
    (encodeAccess (.read a)).extractLsb' 25 7 = 0#7 ∧ (encodeAccess (.read a)).getLsbD 24 = false ∧
    (encodeAccess (.read a)).extractLsb' 8 16 = a ∧ (encodeAccess (.read a)).extractLsb' 0 8 = 0x00#8 :=
  (eq_fields_iff _ false a 0x00#8).1 rfl

theorem decodeAccess_of_write {w : Word32} (hzero : w.extractLsb' 25 7 = 0#7) (hwrite : w.getLsbD 24 = true) :
    decodeAccess w = some (.write (w.extractLsb' 8 16) (w.extractLsb' 0 8)) := by
  rw [decodeAccess, if_pos ⟨hzero, fun hread => absurd (hwrite.symm.trans hread) (by decide)⟩, if_pos hwrite]

theorem decodeAccess_of_read {w : Word32} (hzero : w.extractLsb' 25 7 = 0#7) (hread : w.getLsbD 24 = false)
    (hdata : w.extractLsb' 0 8 = 0x00#8) : decodeAccess w = some (.read (w.extractLsb' 8 16)) := by
  rw [decodeAccess, if_pos ⟨hzero, fun _ => hdata⟩, if_neg (ne_true_of_eq_false hread)]

/-- A word that stands for an access is one of the two forms above. -/
theorem decodeAccess_eq_some_cases {w : Word32} {x : Access} (h : decodeAccess w = some x) :
    w.extractLsb' 25 7 = 0#7 ∧
      ((w.getLsbD 24 = true ∧ x = .write (w.extractLsb' 8 16) (w.extractLsb' 0 8)) ∨
        (w.getLsbD 24 = false ∧ w.extractLsb' 0 8 = 0x00#8 ∧ x = .read (w.extractLsb' 8 16))) := by
  unfold decodeAccess at h
  split_ifs at h with hwf hwrite
  · exact ⟨hwf.1, .inl ⟨hwrite, (Option.some.inj h).symm⟩⟩
  · have hread : w.getLsbD 24 = false := Bool.eq_false_of_not_eq_true hwrite
    exact ⟨hwf.1, .inr ⟨hread, hwf.2 hread, (Option.some.inj h).symm⟩⟩

theorem decodeAccess_encodeAccess (x : Access) : decodeAccess (encodeAccess x) = some x := by
  cases x with
  | read a =>
    obtain ⟨hzero, hread, haddr, hdata⟩ := encodeAccess_read_fields a
    rw [decodeAccess_of_read hzero hread hdata, haddr]
  | write a v =>
    obtain ⟨hzero, hwrite, haddr, hdata⟩ := encodeAccess_write_fields a v
    rw [decodeAccess_of_write hzero hwrite, haddr, hdata]

/-- An access stands in exactly one word: the one it is encoded as. -/
theorem decodeAccess_eq_some_iff {w : Word32} {x : Access} : decodeAccess w = some x ↔ encodeAccess x = w := by
  constructor
  · intro h
    obtain ⟨hzero, ⟨hwrite, rfl⟩ | ⟨hread, hdata, rfl⟩⟩ := decodeAccess_eq_some_cases h
    · exact ((eq_fields_iff w true _ _).2 ⟨hzero, hwrite, rfl, rfl⟩).symm
    · exact ((eq_fields_iff w false _ _).2 ⟨hzero, hread, rfl, hdata⟩).symm
  · rintro rfl
    exact decodeAccess_encodeAccess x

/-- The words that stand for an access. -/
theorem exists_decodeAccess_iff (w : Word32) : (∃ x, decodeAccess w = some x) ↔
    w.extractLsb' 25 7 = 0#7 ∧ (w.getLsbD 24 = true ∨ w.extractLsb' 0 8 = 0x00#8) := by
  constructor
  · rintro ⟨x, hx⟩
    obtain ⟨hzero, ⟨hwrite, -⟩ | ⟨-, hdata, -⟩⟩ := decodeAccess_eq_some_cases hx
    · exact ⟨hzero, .inl hwrite⟩
    · exact ⟨hzero, .inr hdata⟩
  · rintro ⟨hzero, hform⟩
    cases hw : w.getLsbD 24 with
    | true => exact ⟨_, decodeAccess_of_write hzero hw⟩
    | false => exact ⟨_, decodeAccess_of_read hzero hw (hform.resolve_left (ne_true_of_eq_false hw))⟩

theorem decodeProgram_cons_eq_some_iff {w : Word32} {ws : List Word32} {ys : List Access} :
    decodeProgram (w :: ws) = some ys ↔
      ∃ x xs, ys = x :: xs ∧ decodeAccess w = some x ∧ decodeProgram ws = some xs := by
  rw [decodeProgram]
  cases decodeAccess w <;> cases decodeProgram ws <;> simp [eq_comm]

/-- A program is read word by word, and the words it is read from are those of its accesses. -/
theorem decodeProgram_eq_some_iff {ws : List Word32} {xs : List Access} :
    decodeProgram ws = some xs ↔ xs.map encodeAccess = ws := by
  induction ws generalizing xs with
  | nil => simp [decodeProgram, eq_comm]
  | cons w ws ih =>
    simp only [decodeProgram_cons_eq_some_iff, decodeAccess_eq_some_iff, ih, List.map_eq_cons_iff]

/-- Settles O4: the fields are read off the words, and a program and its words are each other's image because every
access and its word are. -/
theorem transactionWordsRoundTrip : Obligations.TransactionWordsRoundTrip :=
  ⟨encodeAccess_write_fields, encodeAccess_read_fields, rfl, rfl, fun _ => decodeProgram_eq_some_iff.2 rfl,
    fun _ _ => decodeProgram_eq_some_iff.1, exists_decodeAccess_iff⟩

end Sys2Proof.Proofs.TransactionWords
end

/-! ## The reserved OPs: which they are, how many, and what a write of one does (R73) -/

section
namespace Sys2Proof.Proofs.ReservedCodes

open Sys2Proof Sys2Proof.Machine

/-- Every OP decodes to a well-formed command: the last case is left with the OPs R71 does not list. -/
theorem wellFormed_decodeOp (op : Byte) : (decodeOp op).WellFormed := by
  unfold decodeOp
  split
  case h_13 =>
    refine decide_eq_true ?_
    simp only [imp_false, ReservedOp, ← BitVec.toNat_inj, BitVec.reduceToNat] at *
    omega
  all_goals rfl

theorem decodeOp_eq_badcmd_iff (op : Byte) : decodeOp op = .badcmd op ↔ ReservedOp op := by
  constructor
  · intro h
    have hwf := wellFormed_decodeOp op
    rw [h] at hwf
    exact of_decide_eq_true hwf
  · intro h
    exact (Laws.DecodeEncode.badcmd op).2 (decide_eq_true h)

theorem decodeOp_ofNat_of_ge {n : Nat} (hlow : 0x10 ≤ n) (hhigh : n < 256) :
    decodeOp (BitVec.ofNat 8 n) = .badcmd (BitVec.ofNat 8 n) := by
  have hn : (BitVec.ofNat 8 n).toNat = n := Nat.mod_eq_of_lt hhigh
  exact (decodeOp_eq_badcmd_iff _).2 (.inr (.inr (.inr (.inr (hn.symm ▸ hlow)))))

/-- Of the sixteen codes below 0x10 four are reserved, and from there on all 240 are. -/
theorem reservedOp_count :
    ((List.range 256).filter fun n => decodeOp (BitVec.ofNat 8 n) == .badcmd (BitVec.ofNat 8 n)).length = 244 := by
  have hsplit : List.range 256 = List.range 16 ++ List.range' 16 240 := by
    rw [List.range_eq_range', List.range_eq_range', List.range'_append]
  rw [hsplit, List.filter_append, List.length_append, List.filter_eq_self (l := List.range' 16 240) |>.2,
    List.length_range']
  · rfl
  · intro n hn
    obtain ⟨hlow, hhigh⟩ := List.mem_range'_1.1 hn
    exact beq_iff_eq.2 (decodeOp_ofNat_of_ge hlow hhigh)

/-- Settles O3: the reserved OPs are those the decoder's last case gets, and a write of one runs BADCMD, which is
`fail`. -/
theorem reservedCodesOnlySetBadCommand : Obligations.ReservedCodesOnlySetBadCommand := by
  refine ⟨decodeOp_eq_badcmd_iff, reservedOp_count, fun op s h => ?_⟩
  rw [busWrite_cmd, h]
  exact fail_eq .badCmd s

end Sys2Proof.Proofs.ReservedCodes
end

/-! ## The host assembler: the words of one form, and of a list of `WR` forms to one address (R76) -/

section
namespace Sys2Proof.Proofs.Assembler

open Sys2Proof

theorem assemble_singleton (f : HostForm) : assemble [f] = (expand f).map encodeAccess := by
  rw [assemble, List.flatMap_singleton]

/-- A list of `WR` forms to one address is the list of their writes. -/
theorem assemble_map_wr (a : Addr) (bs : List Byte) :
    assemble (bs.map (.wr a)) = (bs.map (.write a)).map encodeAccess := by
  rw [assemble, List.flatMap_map]
  exact congrArg (List.map encodeAccess) List.map_eq_flatMap.symm

/-- A form that writes each of its bytes to one address is that list of `WR` forms. -/
theorem assemble_of_expand_eq_map_write {f : HostForm} {a : Addr} {bs : List Byte} (h : expand f = bs.map (.write a)) :
    assemble [f] = assemble (bs.map (.wr a)) := by
  rw [assemble_singleton, h, assemble_map_wr]

/-- Settles O6: TAG, BODY, RX and HEX write their bytes to one port; the other forms expand to a fixed number of
accesses, so both sides evaluate to the same words. -/
theorem assemblerFormsExpandAsListed : Obligations.AssemblerFormsExpandAsListed :=
  ⟨fun _ _ => rfl, fun _ _ => rfl, fun _ => rfl,
    fun _ => assemble_of_expand_eq_map_write rfl, fun _ => assemble_of_expand_eq_map_write rfl,
    fun _ => assemble_of_expand_eq_map_write rfl, fun _ => assemble_of_expand_eq_map_write rfl, fun _ => rfl⟩

end Sys2Proof.Proofs.Assembler
end

/-! ## The packed-ASCII commands: PACK byte by byte, and the clears (R91, R92) -/

section
namespace Sys2Proof.Proofs.PackedAscii

open Sys2Proof Sys2Proof.Machine

/-- Settles O25: each clear is `succeed` over the SFC with its buffer emptied and its flag cleared. -/
theorem clearCommandsEmptyOnlyTheirBuffer : Obligations.ClearCommandsEmptyOnlyTheirBuffer := fun s =>
  ⟨succeed_eq _ s, succeed_eq _ s, succeed_eq _ s, succeed_eq _ s⟩

/-- PACK on a tag that is not of 8 bytes (R91). -/
theorem exec_pack_of_length_ne {s : State} (h : s.sfc.tag.length ≠ 8) : exec .pack s = fail .tagShort s :=
  if_pos h

/-- PACK on a tag of 8 bytes (R91). -/
theorem exec_pack_of_length_eq {s : State} (h : s.sfc.tag.length = 8) :
    exec .pack s = succeed { s.sfc with paddr := packTag s.sfc.tag } s :=
  if_neg (not_not_intro h)

/-- Where symbol `i` ends `hi` bits into byte `j`, the byte is the low `hi` bits of that symbol and the high bits of
the next one. -/
theorem streamByte_packedStream (t : List Byte) (i : Nat) {j hi lo : Nat} (hwidth : hi + lo = 8)
    (hend : 8 * j + hi = 6 * (i + 1)) (hj : j < 6) (hhi : hi ≤ 6) (hlo : lo ≤ 6) :
    streamByte (packedStream t) j =
      ((symbol (byteAt t i)).extractLsb' 0 hi ++ (symbol (byteAt t (i + 1))).extractLsb' (6 - lo) lo).cast hwidth := by
  apply BitVec.eq_of_getLsbD_eq
  intro k hk
  rw [getLsbD_streamByte _ _ hk, getLsbD_packedStream _ (by omega), BitVec.getLsbD_cast, BitVec.getLsbD_append]
  by_cases hnext : k < lo
  · have hindex : 7 - (40 - 8 * j + k) / 6 = i + 1 := by omega
    have hbit : (40 - 8 * j + k) % 6 = 6 - lo + k := by omega
    have hin : 6 - lo + k < 6 := by omega
    simp [hindex, hbit, hnext, symbol, hin]
  · have hindex : 7 - (40 - 8 * j + k) / 6 = i := by omega
    have hbit : (40 - 8 * j + k) % 6 = k - lo := by omega
    have hin : k - lo < hi ∧ k - lo < 6 := by omega
    simp [hindex, hbit, hnext, symbol, hin]

/-- R91's regrouping: three bytes for four symbols, twice. -/
theorem packTag_eq (c0 c1 c2 c3 c4 c5 c6 c7 : Byte) :
    packTag [c0, c1, c2, c3, c4, c5, c6, c7] =
      #v[symbol c0 ++ (symbol c1).extractLsb' 4 2,
        (symbol c1).extractLsb' 0 4 ++ (symbol c2).extractLsb' 2 4,
        (symbol c2).extractLsb' 0 2 ++ symbol c3,
        symbol c4 ++ (symbol c5).extractLsb' 4 2,
        (symbol c5).extractLsb' 0 4 ++ (symbol c6).extractLsb' 2 4,
        (symbol c6).extractLsb' 0 2 ++ symbol c7] := by
  have byte := streamByte_packedStream [c0, c1, c2, c3, c4, c5, c6, c7]
  simp only [packTag, splitStream,
    byte 0 (j := 0) (hi := 6) (lo := 2) rfl rfl (by decide) (by decide) (by decide),
    byte 1 (j := 1) (hi := 4) (lo := 4) rfl rfl (by decide) (by decide) (by decide),
    byte 2 (j := 2) (hi := 2) (lo := 6) rfl rfl (by decide) (by decide) (by decide),
    byte 4 (j := 3) (hi := 6) (lo := 2) rfl rfl (by decide) (by decide) (by decide),
    byte 5 (j := 4) (hi := 4) (lo := 4) rfl rfl (by decide) (by decide) (by decide),
    byte 6 (j := 5) (hi := 2) (lo := 6) rfl rfl (by decide) (by decide) (by decide)]
  simp [byteAt]

/-- A symbol is the low six bits of its character, and bit 6 of a character is not one of them. -/
theorem toNat_symbol (c : Byte) : (symbol c).toNat = c.toNat % 128 % 64 := by
  rw [symbol, BitVec.extractLsb'_toNat, Nat.shiftRight_zero]
  exact (Nat.mod_mod_of_dvd c.toNat (by decide)).symm

/-- Settles O22: `packTag_eq` gives PADDR's bytes; any other length is `fail`. -/
theorem packRegroupsTheSymbols : Obligations.PackRegroupsTheSymbols := by
  refine ⟨fun s h => (exec_pack_of_length_ne h).trans (fail_eq .tagShort s), ?_, toNat_symbol⟩
  intro s c0 c1 c2 c3 c4 c5 c6 c7 htag y
  have hlength : s.sfc.tag.length = 8 := by rw [htag]; rfl
  rw [exec_pack_of_length_eq hlength, htag, packTag_eq]
  exact succeed_eq _ s

end Sys2Proof.Proofs.PackedAscii
end

/-! ## A run of writes to one address, and the TAG port as a window on what was written (R55, R90) -/

section
namespace Sys2Proof.Proofs.PortRuns

open Sys2Proof Sys2Proof.Machine Sys2Proof.Proofs.EventOrder Sys2Proof.Proofs.PackedAscii

/-- A run of writes to an address other than CMD folds its location's write effect over the bytes (R55). -/
theorem runEvents_writes {a : Addr} (ha : locate a ≠ .cmd) (l : List Byte) (s : State) :
    runEvents (l.map (busWriteEvent a)) s =
      .next ((s.withSfc (l.foldl (fun d v => writeLoc s.cfg (locate a) v d) s.sfc)).withPending []) := by
  induction l generalizing s with
  | nil => rfl
  | cons v l ih =>
    have hfirst : runEvent (busWriteEvent a v) (s.withPending (l.map (busWriteEvent a))) = _ :=
      busWrite_of_ne_cmd ha v _
    rw [List.map_cons, runEvents_cons hfirst rfl, ih]
    rfl

/-- The TAG port after a run of bytes, where TAG is the last 8 bytes of a history `u`: the last 8 of the longer
history. -/
theorem foldl_tagPortWrite {u : List Byte} {d : Sfc} (h : d.tag = lastN 8 u) (l : List Byte) :
    l.foldl (fun d v => tagPortWrite v d) d = { d with tag := lastN 8 (u ++ l) } := by
  induction l generalizing u d with
  | nil => rw [List.foldl_nil, List.append_nil, ← h]
  | cons v l ih =>
    have hshift : (tagPortWrite v d).tag = lastN 8 (u ++ [v]) := by
      rw [tagPortWrite, h]
      exact lastN_append_lastN 8 u [v]
    rw [List.foldl_cons, ih hshift, List.append_assoc]
    rfl

/-- Once `n` bytes have come after it, nothing of `u` is among the last `n`. -/
theorem lastN_append_of_le (u : List Byte) {n : Nat} {l : List Byte} (h : n ≤ l.length) :
    lastN n (u ++ l) = lastN n l := by
  rw [lastN, lastN, List.length_append, Nat.add_sub_assoc h, List.drop_length_add_append]

theorem lastN_of_length_le {n : Nat} {l : List Byte} (h : l.length ≤ n) : lastN n l = l := by
  rw [lastN, Nat.sub_eq_zero_of_le h, List.drop_zero]

/-- Eight or more bytes written to TAG_IN leave nothing of the tag before them. -/
theorem foldl_tagPortWrite_of_le (d : Sfc) {l : List Byte} (h : 8 ≤ l.length) :
    l.foldl (fun d v => tagPortWrite v d) d = { d with tag := lastN 8 l } := by
  cases l with
  | nil => cases h
  | cons v l =>
    have hfirst : (tagPortWrite v d).tag = lastN 8 (d.tag ++ [v]) := rfl
    rw [List.foldl_cons, foldl_tagPortWrite hfirst l, List.append_assoc, List.singleton_append,
      lastN_append_of_le d.tag h]
    rfl

/-- Fewer than eight bytes written into an empty TAG are TAG. -/
theorem foldl_tagPortWrite_of_lt {d : Sfc} (hd : d.tag = []) {l : List Byte} (h : l.length < 8) :
    l.foldl (fun d v => tagPortWrite v d) d = { d with tag := l } := by
  rw [foldl_tagPortWrite (u := []) hd, List.nil_append, lastN_of_length_le h.le]

theorem runEvents_tagWrites (l : List Byte) (s : State) :
    runEvents (l.map (busWriteEvent tagInAddr)) s =
      .next ((s.withSfc (l.foldl (fun d v => tagPortWrite v d) s.sfc)).withPending []) :=
  runEvents_writes (a := tagInAddr) nofun l s

theorem runEvent_pack_of_length_ne {s : State} (h : s.sfc.tag.length ≠ 8) :
    runEvent (cmdWrite 0x01#8) s = .next { s with sfc := { s.sfc with res := 0x02#8 } } :=
  (exec_pack_of_length_ne h).trans (fail_eq .tagShort s)

/-- Settles O15: a run of writes folds the TAG port, and after fewer than eight the PACK that follows fails. -/
theorem tagPortKeepsTheLastEight : Obligations.TagPortKeepsTheLastEight := by
  refine ⟨fun s v => ?_, fun s l hl => ?_, fun s l hempty hl => ?_⟩
  · rw [busWrite_of_ne_cmd (a := tagInAddr) nofun]
    exact congrArg (fun d => Host.Outcome.next (s.withSfc d)) (tagPortWrite_eq v s.sfc)
  · rw [runEvents_tagWrites, foldl_tagPortWrite_of_le s.sfc hl]
    rfl
  · have hwrites := runEvents_tagWrites l s
    rw [foldl_tagPortWrite_of_lt hempty hl] at hwrites
    have hpack := runEvent_pack_of_length_ne (s := (s.withSfc { s.sfc with tag := l }).withPending []) hl.ne
    exact (runEvents_append hwrites _).trans (runEvents_cons hpack rfl)

end Sys2Proof.Proofs.PortRuns
end

/-! ## The checksum: a leading run of sync bytes, a last byte, and CSUM and FENC over it (R100 to R102) -/

section
namespace Sys2Proof.Proofs.Checksum

open Sys2Proof Sys2Proof.Machine

/-- CSUM after a dropped body byte (R101). -/
theorem exec_csum_of_bodyOvf {s : State} (h : s.sfc.bodyOvf = true) : exec .csum s = fail .bodyOvf s :=
  if_pos h

/-- CSUM on a complete body (R101). -/
theorem exec_csum_of_not_bodyOvf {s : State} (h : s.sfc.bodyOvf = false) :
    exec .csum s = succeed { s.sfc with csum := crc s.sfc.body } s :=
  if_neg (Bool.eq_false_iff.mp h)

/-- Settles O28: CSUM is `fail` or `succeed` by BODY_OVF. -/
theorem csumChecksTheBody : Obligations.CsumChecksTheBody := fun s =>
  ⟨fun h => (exec_csum_of_bodyOvf h).trans (fail_eq .bodyOvf s),
    fun h => (exec_csum_of_not_bodyOvf h).trans (succeed_eq _ s)⟩

/-- XOR being associative and commutative, the checksum's fold may start from either end. -/
theorem crc_eq_foldr (s : List Byte) :
    crc s = (s.dropWhile (fun x => x == 0xFF#8)).foldr (fun x y => x ^^^ y) 0x00#8 :=
  List.foldl_eq_foldr

/-- R102's prefix skip. -/
theorem crc_replicate_sync_append (n : Nat) (s : List Byte) : crc (List.replicate n 0xFF#8 ++ s) = crc s := by
  induction n with
  | zero => rfl
  | succ n ih => exact (crc_cons_sync _).trans ih

theorem crc_replicate_sync (n : Nat) : crc (List.replicate n 0xFF#8) = 0x00#8 := by
  have h := crc_replicate_sync_append n []
  rwa [List.append_nil] at h

/-- Settles O26: `crc_replicate_sync_append` skips the run, and from its first other byte on `crc_cons_of_ne` counts
every byte. -/
theorem checksumSkipsOnlyTheLeadingSync : Obligations.ChecksumSkipsOnlyTheLeadingSync := by
  refine ⟨fun n b s hb => ?_, crc_replicate_sync⟩
  rw [crc_replicate_sync_append, crc_cons_of_ne s hb, List.foldl_eq_foldr]

/-- D16: a list of only sync bytes, the empty list among them, has checksum 0x00. -/
theorem crc_of_forall_sync {s : List Byte} (h : ∀ x ∈ s, x = 0xFF#8) : crc s = 0x00#8 := by
  rw [List.eq_replicate_of_mem h, crc_replicate_sync]

/-- R102's append linearity. The exception is handed down the leading run, and ends at its first other byte. -/
theorem crc_append_singleton {s : List Byte} {b : Byte} (h : ¬ ((∀ x ∈ s, x = 0xFF#8) ∧ b = 0xFF#8)) :
    crc (s ++ [b]) = crc s ^^^ b := by
  induction s with
  | nil =>
    have hb : b ≠ syncByte := fun e => h ⟨nofun, e⟩
    exact crc_cons_of_ne [] hb
  | cons a s ih =>
    by_cases ha : a = syncByte
    · subst ha
      have hrest : ¬ ((∀ x ∈ s, x = 0xFF#8) ∧ b = 0xFF#8) := fun ⟨hs, hb⟩ => h ⟨List.forall_mem_cons.mpr ⟨rfl, hs⟩, hb⟩
      rw [List.cons_append, crc_cons_sync, crc_cons_sync, ih hrest]
    · rw [List.cons_append, crc_cons_of_ne _ ha, crc_cons_of_ne _ ha, ← List.cons_append, List.foldl_append]
      rfl

/-- R102's self-cancellation: a checksum of 0xFF is never that of a list of only 0xFF, so the exception does not
arise. -/
theorem crc_append_crc (s : List Byte) : crc (s ++ [crc s]) = 0x00#8 := by
  have hnoException : ¬ ((∀ x ∈ s, x = 0xFF#8) ∧ crc s = 0xFF#8) := by
    rintro ⟨hsync, hcrc⟩
    rw [crc_of_forall_sync hsync] at hcrc
    exact absurd hcrc (by decide)
  rw [crc_append_singleton hnoException, BitVec.xor_self]

/-- FENC on a complete body (R112). -/
theorem exec_fenc_of_not_bodyOvf {s : State} (h : s.sfc.bodyOvf = false) :
    exec .fenc s = succeed { s.sfc with csum := crc s.sfc.body, tx := frameOf s.sfc.body } s :=
  if_neg (Bool.eq_false_iff.mp h)

/-- A frame without its checksum and terminator is the preamble and the body (R112). -/
theorem frameOf_take_length_sub_two (b : List Byte) :
    (frameOf b).take ((frameOf b).length - 2) = List.replicate 4 0xFF#8 ++ b := by
  rw [frameOf_eq, ← List.append_assoc, List.length_append]
  exact List.take_left

/-- Settles O27: `frameOf_take_length_sub_two` makes the FENC clause one of the prefix skip, and `crc_eq_foldr` the
XOR of a frame core its checksum. -/
theorem checksumLaws : Obligations.ChecksumLaws := by
  refine ⟨crc_replicate_sync_append, fun s t hovf hfenc => ?_, fun b => (crc_eq_foldr _).symm.trans (crc_append_crc b),
    fun _ _ => crc_append_singleton, fun s hs => ⟨crc_of_forall_sync hs, crc_of_forall_sync ?_⟩⟩
  · rw [exec_fenc_of_not_bodyOvf hovf, succeed_eq] at hfenc
    cases hfenc
    rw [frameOf_take_length_sub_two, crc_replicate_sync_append]
  · exact List.forall_mem_append.mpr ⟨hs, List.forall_mem_singleton.mpr rfl⟩

end Sys2Proof.Proofs.Checksum
end

/-! ## The frame codec's commands: strip, FENC and FDEC by their outcomes (R112 to R114) -/

section
namespace Sys2Proof.Proofs.FrameCommands

open Sys2Proof Sys2Proof.Machine Sys2Proof.Proofs.Checksum

/-- FDEC after a dropped response byte (R114). -/
theorem exec_fdec_of_rxOvf {s : State} (h : s.sfc.rxOvf = true) : exec .fdec s = fail .rxOvf s :=
  if_pos h

/-- FDEC on a response without a whole header (R114). -/
theorem exec_fdec_of_short {s : State} (hovf : s.sfc.rxOvf = false) (hlen : (strip s.sfc.rx).length < 8) :
    exec .fdec s = complete (decodeShort (strip s.sfc.rx) s.sfc) .decShort s :=
  (if_neg (Bool.eq_false_iff.mp hovf)).trans (if_pos hlen)

/-- FDEC on a whole header, where the byte count decides between E_DEC_BOUNDS and OK (R114). -/
theorem exec_fdec_of_header {s : State} (hovf : s.sfc.rxOvf = false) {d a0 a1 a2 a3 a4 c n : Byte} {rest : List Byte}
    (hst : strip s.sfc.rx = d :: a0 :: a1 :: a2 :: a3 :: a4 :: c :: n :: rest) :
    exec .fdec s =
      if rest.length < n.toNat then complete (decodeHeader (strip s.sfc.rx) [] s.sfc) .decBounds s
      else succeed (decodeHeader (strip s.sfc.rx) (rest.take n.toNat) s.sfc) s := by
  have hlen : (strip s.sfc.rx).length = rest.length + 8 := congrArg List.length hst
  have hcount : byteAt (strip s.sfc.rx) 7 = n := congrArg (byteAt · 7) hst
  have hdata : (strip s.sfc.rx).drop 8 = rest := congrArg (List.drop 8) hst
  rcases execFdec_cases s with ⟨h, -⟩ | ⟨-, h, -⟩ | ⟨-, -, hpast, he⟩ | ⟨-, hfits, he⟩
  · rw [hovf] at h; cases h
  · omega
  · rw [hcount] at hpast
    rw [if_pos (by omega)]
    exact he
  · rw [hcount] at hfits
    rw [hdata, hcount] at he
    rw [if_neg (by omega)]
    exact he

/-- The header fields of a sequence written out byte by byte are its first eight bytes (R114). -/
theorem decodeHeader_cons (d a0 a1 a2 a3 a4 c n : Byte) (rest data : List Byte) (q : Sfc) :
    decodeHeader (d :: a0 :: a1 :: a2 :: a3 :: a4 :: c :: n :: rest) data q =
      { q with
        slen := 8 + rest.length, decDelim := d, decAddr := #v[a0, a1, a2, a3, a4], decCmd := c, decBcnt := n
        data := data } := by
  rw [Nat.add_comm 8]
  rfl

/-- FDEC writes SLEN, the header fields, DATA and RES, and nothing else (R114). -/
theorem exec_fdec_frame {s t : State} (h : exec .fdec s = .next t) :
    ∃ slen decDelim decAddr decCmd decBcnt data res,
      t = { s with sfc := { s.sfc with slen, decDelim, decAddr, decCmd, decBcnt, data, res } } := by
  rcases execFdec_cases s with ⟨-, he⟩ | ⟨-, -, he⟩ | ⟨-, -, -, he⟩ | ⟨-, -, he⟩ <;>
    exact ⟨_, _, _, _, _, _, _, Host.Outcome.next.inj (h.symm.trans he)⟩

/-- Settles O32: FDEC fails on RX_OVF, and otherwise the length of the stripped sequence and the byte count decide. -/
theorem fdecParsesTheStrippedResponse : Obligations.FdecParsesTheStrippedResponse := by
  refine ⟨fun s hovf => (exec_fdec_of_rxOvf hovf).trans (fail_eq .rxOvf s),
    fun s hovf hlen => (exec_fdec_of_short hovf hlen).trans (complete_eq _ .decShort s),
    fun s d a0 a1 a2 a3 a4 c n rest hovf hst => ?_⟩
  have hfdec := exec_fdec_of_header hovf hst
  rw [hst, decodeHeader_cons, decodeHeader_cons] at hfdec
  exact ⟨fun hpast => hfdec.trans (if_pos hpast), fun hfits => hfdec.trans (if_neg (Nat.not_lt.mpr hfits))⟩

/-- FENC after a dropped body byte (R112). -/
theorem exec_fenc_of_bodyOvf {s : State} (h : s.sfc.bodyOvf = true) : exec .fenc s = fail .bodyOvf s :=
  if_pos h

/-- Settles O29: FENC is `fail` or `succeed` by BODY_OVF, and the invariant bounds the body of its frame. -/
theorem fencBuildsTheFrame : Obligations.FencBuildsTheFrame := by
  refine ⟨fun s => ⟨fun h => (exec_fenc_of_bodyOvf h).trans (fail_eq .bodyOvf s),
    fun h => (exec_fenc_of_not_bodyOvf h).trans (succeed_eq _ s)⟩, fun s t hinv hovf hfenc => ?_⟩
  rw [exec_fenc_of_not_bodyOvf hovf, succeed_eq] at hfenc
  cases hfenc
  have hbody := hinv.2.body_len
  have hlen := frameOf_length s.sfc.body
  exact ⟨hlen, (Nat.le_add_left 6 _).trans_eq hlen.symm, hlen.trans_le (Nat.add_le_add_right hbody 6)⟩

/-- Settles O31: the three equations of `strip`. -/
theorem stripRemovesEverySync : Obligations.StripRemovesEverySync :=
  ⟨strip_nil, strip_cons_sync, fun _ r hb => strip_cons_of_ne r hb⟩

end Sys2Proof.Proofs.FrameCommands
end

/-! ## The BODY and RX ports: a buffer that fills up to its bound, and a flag that stays set (R110, R111) -/

section
namespace Sys2Proof.Proofs.BoundedPorts

open Sys2Proof Sys2Proof.Machine Sys2Proof.Proofs.PortRuns Sys2Proof.Proofs.Checksum Sys2Proof.Proofs.FrameCommands

/-- A run of bytes through a port that appends to a buffer below `cap` and sets a flag at `cap`, where `put` is the SFC
with that buffer and that flag: the first bytes fill the buffer, and any left over set the flag. -/
theorem foldl_boundedPort {put : List Byte → Bool → Sfc} {port : Byte → Sfc → Sfc} {cap : Nat}
    (hroom : ∀ v b ovf, b.length < cap → port v (put b ovf) = put (b ++ [v]) ovf)
    (hfull : ∀ v b ovf, cap ≤ b.length → port v (put b ovf) = put b true)
    (l b : List Byte) (ovf : Bool) (hb : b.length ≤ cap) :
    l.foldl (fun d v => port v d) (put b ovf) =
      put (b ++ l.take (cap - b.length)) (ovf || decide (cap < b.length + l.length)) := by
  induction l generalizing b ovf with
  | nil => simp [Nat.not_lt.mpr hb]
  | cons v l ih =>
    rw [List.foldl_cons]
    rcases hb.lt_or_eq with hlt | heq
    · have happend : (b ++ [v]).length = b.length + 1 := List.length_append
      have hspace : cap - b.length = cap - (b ++ [v]).length + 1 := by omega
      have hlen : b.length + (v :: l).length = (b ++ [v]).length + l.length := by
        rw [happend, List.length_cons]; omega
      rw [hroom v b ovf hlt, ih _ _ (by omega), hspace, hlen, List.take_succ_cons, List.append_assoc,
        List.singleton_append]
    · rw [hfull v b ovf heq.ge, ih _ _ hb]
      simp [heq]

theorem foldl_bodyPortWrite {cfg : Config} {d : Sfc} (h : d.body.length ≤ cfg.bodyMax) (l : List Byte) :
    l.foldl (fun d v => bodyPortWrite cfg v d) d =
      { d with
        body := d.body ++ l.take (cfg.bodyMax - d.body.length)
        bodyOvf := d.bodyOvf || decide (cfg.bodyMax < d.body.length + l.length) } :=
  foldl_boundedPort (put := fun body bodyOvf => { d with body, bodyOvf })
    (fun v _ _ hroom => bodyPortWrite_room v hroom) (fun v _ _ hfull => bodyPortWrite_full v hfull) l d.body d.bodyOvf h

theorem foldl_rxPortWrite {cfg : Config} {d : Sfc} (h : d.rx.length ≤ cfg.rxMax) (l : List Byte) :
    l.foldl (fun d v => rxPortWrite cfg v d) d =
      { d with
        rx := d.rx ++ l.take (cfg.rxMax - d.rx.length)
        rxOvf := d.rxOvf || decide (cfg.rxMax < d.rx.length + l.length) } :=
  foldl_boundedPort (put := fun rx rxOvf => { d with rx, rxOvf })
    (fun v _ _ hroom => rxPortWrite_room v hroom) (fun v _ _ hfull => rxPortWrite_full v hfull) l d.rx d.rxOvf h

theorem busWrite_bodyIn (v : Byte) (s : State) :
    busWrite bodyInAddr v s = .next (s.withSfc (bodyPortWrite s.cfg v s.sfc)) :=
  busWrite_of_ne_cmd (a := bodyInAddr) nofun v s

theorem busWrite_rxIn (v : Byte) (s : State) :
    busWrite rxInAddr v s = .next (s.withSfc (rxPortWrite s.cfg v s.sfc)) :=
  busWrite_of_ne_cmd (a := rxInAddr) nofun v s

theorem runEvents_bodyWrites (l : List Byte) (s : State) :
    runEvents (l.map (busWriteEvent bodyInAddr)) s =
      .next ((s.withSfc (l.foldl (fun d v => bodyPortWrite s.cfg v d) s.sfc)).withPending []) :=
  runEvents_writes (a := bodyInAddr) nofun l s

theorem runEvents_rxWrites (l : List Byte) (s : State) :
    runEvents (l.map (busWriteEvent rxInAddr)) s =
      .next ((s.withSfc (l.foldl (fun d v => rxPortWrite s.cfg v d) s.sfc)).withPending []) :=
  runEvents_writes (a := rxInAddr) nofun l s

/-- Settles O17: a run of writes folds the RX port, and FDEC's writes do not reach RX. -/
theorem rxPortAppendsUntilFull : Obligations.RxPortAppendsUntilFull := by
  refine ⟨fun s v => ⟨fun hroom => ?_, fun hfull => ?_⟩, fun s l hlen => ?_, fun s t hfdec => ?_⟩
  · rw [busWrite_rxIn, rxPortWrite_room v hroom]; rfl
  · rw [busWrite_rxIn, rxPortWrite_full v hfull]; rfl
  · rw [runEvents_rxWrites, foldl_rxPortWrite hlen]; rfl
  · obtain ⟨_, _, _, _, _, _, _, rfl⟩ := exec_fdec_frame hfdec
    rfl

/-! ### BODY_OVF stays set -/

/-- Encoding what an OP decodes to gives the OP back (R71, R73). -/
theorem opcodeOf_decodeOp (op : Byte) : opcodeOf (decodeOp op) = op := by
  unfold decodeOp
  split
  case h_13 => rfl
  all_goals exact BitVec.eq_of_toNat_eq (Eq.symm ‹op.toNat = _›)

/-- The commands other than CLR_BODY and SRST leave BODY_OVF as it is (R37). -/
theorem exec_bodyOvf {i : Instr} (hclr : i ≠ .clrBody) (hsrst : i ≠ .srst) {s t : State} (h : exec i s = .next t) :
    t.sfc.bodyOvf = s.sfc.bodyOvf := by
  cases i with
  | clrBody => exact absurd rfl hclr
  | srst => exact absurd rfl hsrst
  | pack => simp only [exec, execPack] at h; split at h <;> cases h <;> rfl
  | csum => simp only [exec, execCsum] at h; split at h <;> cases h <;> rfl
  | fenc => simp only [exec, execFenc] at h; split at h <;> cases h <;> rfl
  | fdec => obtain ⟨_, _, _, _, _, _, _, rfl⟩ := exec_fdec_frame h; rfl
  | h2f =>
    rcases execH2f_cases s with ⟨-, he⟩ | ⟨-, -, he⟩ | ⟨-, -, _, -, he⟩ <;> cases h.symm.trans he <;> rfl
  | nop | f2h | clrTag | clrRx | clrHex | badcmd _ => cases h; rfl

/-- No port clears BODY_OVF. -/
theorem writeLoc_keeps_bodyOvf {d : Sfc} (h : d.bodyOvf = true) (cfg : Config) (l : Loc) (v : Byte) :
    (writeLoc cfg l v d).bodyOvf = true := by
  cases l with
  | bodyIn => simp only [writeLoc, bodyPortWrite]; split <;> simp [h]
  | rxIn => simp only [writeLoc, rxPortWrite]; split <;> exact h
  | hexIn => simp only [writeLoc, hexPortWrite]; split <;> exact h
  | _ => exact h

/-- A bus write other than the commands CLR_BODY and SRST leaves a set BODY_OVF set (R110). -/
theorem busWrite_keeps_bodyOvf {a : Addr} {v : Byte} (hclr : Access.write a v ≠ .write 0x0000#16 0x09#8)
    (hsrst : Access.write a v ≠ .write 0x0000#16 0x0F#8) {s t : State} (hovf : s.sfc.bodyOvf = true)
    (h : busWrite a v s = .next t) : t.sfc.bodyOvf = true := by
  by_cases ha : locate a = .cmd
  · obtain rfl := (locate_eq_cmd_iff a).mp ha
    have hop {i : Instr} (hi : decodeOp v = i) : v = opcodeOf i := hi ▸ (opcodeOf_decodeOp v).symm
    rw [exec_bodyOvf (fun hi => hclr (congrArg _ (hop hi))) (fun hi => hsrst (congrArg _ (hop hi))) h, hovf]
  · rw [busWrite_of_ne_cmd ha] at h
    cases h
    exact writeLoc_keeps_bodyOvf hovf ..

/-- Settles O16: a run of writes folds the BODY port, CSUM and FENC fail on the flag, and a step's access is a read or
one of the writes that keep it. -/
theorem bodyPortAppendsUntilFull : Obligations.BodyPortAppendsUntilFull := by
  refine ⟨fun s v => ⟨fun hroom => ?_, fun hfull => ?_⟩, fun s l hlen => ?_, fun s hovf => ?_,
    fun s t x rest hovf hp hclr hsrst hstep => ?_⟩
  · rw [busWrite_bodyIn, bodyPortWrite_room v hroom]; rfl
  · rw [busWrite_bodyIn, bodyPortWrite_full v hfull]; rfl
  · rw [runEvents_bodyWrites, foldl_bodyPortWrite hlen]; rfl
  · exact ⟨(exec_csum_of_bodyOvf hovf).trans (fail_eq .bodyOvf s),
      (exec_fenc_of_bodyOvf hovf).trans (fail_eq .bodyOvf s)⟩
  · cases x with
    | read a =>
      rw [BusAccess.step_read hp] at hstep
      cases hstep
      exact hovf
    | write a v =>
      rw [BusAccess.step_write hp] at hstep
      exact busWrite_keeps_bodyOvf hclr hsrst (s := s.withPending rest) hovf hstep

end Sys2Proof.Proofs.BoundedPorts
end

/-! ## FLT's bytes as the bus reads and writes them (R131) -/

section
namespace Sys2Proof.Proofs.FltAccess

open Sys2Proof Sys2Proof.Machine

theorem busWrite_flt (i : Fin 4) (v : Byte) (s : State) :
    busWrite (BitVec.ofNat 16 (0x001C + i.val)) v s =
      .next (s.withSfc { s.sfc with flt := setFltByte s.sfc.flt i v }) := by
  have hloc := locate_flt i
  rw [busWrite_of_ne_cmd (by rw [hloc]; nofun), hloc]
  rfl

/-- The bits of FLT outside byte `i` (R131). -/
theorem getLsbD_setFltByte_of_outside (w : Word32) (i : Fin 4) (v : Byte) {k : Nat}
    (hk : k < 24 - 8 * i.val ∨ 32 - 8 * i.val ≤ k) : (setFltByte w i v).getLsbD k = w.getLsbD k := by
  have houtside : ¬ (24 - 8 * i.val ≤ k ∧ k < 24 - 8 * i.val + 8) := by omega
  rw [setFltByte, getLsbD_putField, if_neg houtside]

/-- Settles O13: the new word is `setFltByte`, which reads back the written byte and keeps the bits outside it. -/
theorem fltBytesAreWrittenIndependently : Obligations.FltBytesAreWrittenIndependently :=
  ⟨fun d i => busRead_of_locate (locate_flt i) d,
    fun s i v => ⟨setFltByte s.sfc.flt i v, busWrite_flt i v s, fltByte_setFltByte s.sfc.flt i v,
      fun _ hk => getLsbD_setFltByte_of_outside s.sfc.flt i v hk⟩⟩

/-- The host's `FLT` form writes FLT and nothing else. -/
theorem runEvents_fltForm_frame (w : Word32) (s : State) : ∃ x : Word32,
    runEvents ((expand (.flt w)).map .access) s = .next ((s.withSfc { s.sfc with flt := x }).withPending []) :=
  ⟨_, rfl⟩

end Sys2Proof.Proofs.FltAccess
end

/-! ## Hex text and words: eight digits put together, and a word's nibbles (R133, R134) -/

section
namespace Sys2Proof.Proofs.HexWords

open Sys2Proof Sys2Proof.Machine

/-- Shifting a digit in puts it on the right of the digits before it. -/
theorem shiftLeft_or_setWidth_eq_append {n : Nat} (x : BitVec n) (d : Nibble) :
    x.setWidth 32 <<< 4 ||| d.setWidth 32 = (x ++ d).setWidth 32 := by
  apply BitVec.eq_of_getLsbD_eq
  intro k hk
  rw [BitVec.getLsbD_or, BitVec.getLsbD_shiftLeft, BitVec.getLsbD_setWidth, BitVec.getLsbD_setWidth,
    BitVec.getLsbD_setWidth, BitVec.getLsbD_append]
  by_cases hlow : k < 4
  · simp [hlow, hk]
  · have hd : d.getLsbD k = false := BitVec.getLsbD_of_ge d k (by omega)
    have hx : k - 4 < 32 := by omega
    simp [hlow, hk, hd, hx]

/-- One step of `shiftInDigits`, where the word holds the digits read so far. -/
theorem shiftInDigits_cons {n : Nat} (x : BitVec n) {c : Byte} {d : Nibble} (h : hexval c = some d) (t : List Byte) :
    shiftInDigits (x.setWidth 32) (c :: t) = shiftInDigits ((x ++ d).setWidth 32) t := by
  rw [← shiftLeft_or_setWidth_eq_append, shiftInDigits, h]

/-- The word of eight hex digits, the first in bits 31:28 (R134). -/
theorem hexWord_of_map_hexval {t : List Byte} {n0 n1 n2 n3 n4 n5 n6 n7 : Nibble}
    (h : t.map hexval = [some n0, some n1, some n2, some n3, some n4, some n5, some n6, some n7]) :
    hexWord t = some (n0 ++ n1 ++ n2 ++ n3 ++ n4 ++ n5 ++ n6 ++ n7) := by
  simp only [List.map_eq_cons_iff, List.map_eq_nil_iff] at h
  obtain ⟨c0, _, rfl, h0, c1, _, rfl, h1, c2, _, rfl, h2, c3, _, rfl, h3, c4, _, rfl, h4, c5, _, rfl, h5,
    c6, _, rfl, h6, c7, _, rfl, h7, rfl⟩ := h
  have hstart (t : List Byte) : hexWord (c0 :: t) = shiftInDigits (n0.setWidth 32) t := by
    simp [hexWord, shiftInDigits, h0]
  rw [hstart, shiftInDigits_cons _ h1, shiftInDigits_cons _ h2, shiftInDigits_cons _ h3, shiftInDigits_cons _ h4,
    shiftInDigits_cons _ h5, shiftInDigits_cons _ h6, shiftInDigits_cons _ h7, shiftInDigits, BitVec.setWidth_eq]

/-- A run of bits that ends where nibble `i` ends, and the next nibble after it. -/
theorem extractLsb'_append_nibbleAt (w : Word32) (len i : Nat) (h : i < 7) :
    w.extractLsb' (28 - 4 * i) len ++ nibbleAt w (i + 1) = w.extractLsb' (28 - 4 * (i + 1)) (len + 4) :=
  BitVec.extractLsb'_append_extractLsb'_eq_extractLsb' (by omega)

/-- The eight nibbles of a word, put together again in order, are the word. -/
theorem nibbleAt_append (w : Word32) :
    nibbleAt w 0 ++ nibbleAt w 1 ++ nibbleAt w 2 ++ nibbleAt w 3 ++ nibbleAt w 4 ++ nibbleAt w 5 ++ nibbleAt w 6 ++
      nibbleAt w 7 = w := by
  have join := extractLsb'_append_nibbleAt w
  rw [nibbleAt, join 4 0 (by decide), join 8 1 (by decide), join 12 2 (by decide), join 16 3 (by decide),
    join 20 4 (by decide), join 24 5 (by decide), join 28 6 (by decide), BitVec.extractLsb'_eq_self]

theorem map_hexval_hexText (hc : HexCase) (w : Word32) :
    (hexText hc w).toList.map hexval = [some (nibbleAt w 0), some (nibbleAt w 1), some (nibbleAt w 2),
      some (nibbleAt w 3), some (nibbleAt w 4), some (nibbleAt w 5), some (nibbleAt w 6), some (nibbleAt w 7)] := by
  simp [hexText, hexval_hexchar]

/-- What H2F reads of the text F2H wrote is the word, in either letter case (R136). -/
theorem hexWord_hexText (hc : HexCase) (w : Word32) : hexWord (hexText hc w).toList = some w := by
  rw [hexWord_of_map_hexval (map_hexval_hexText hc w), nibbleAt_append]

end Sys2Proof.Proofs.HexWords
end

/-! ## The converter's commands, the HEX port, and the round trip through the text (R132 to R136) -/

section
namespace Sys2Proof.Proofs.HexConverter

open Sys2Proof Sys2Proof.Machine Sys2Proof.Proofs.EventOrder Sys2Proof.Proofs.PortRuns Sys2Proof.Proofs.BoundedPorts
  Sys2Proof.Proofs.FltAccess Sys2Proof.Proofs.HexWords

theorem exec_f2h (s : State) :
    exec .f2h s = succeed { s.sfc with hexo := hexText s.cfg.hexCase s.sfc.flt } s := rfl

/-- Settles O37: F2H is `succeed` with HEXO the text of FLT's nibbles, nibble `i` being the four bits from 28-4i. -/
theorem f2hWritesTheHexText : Obligations.F2hWritesTheHexText := fun s =>
  (exec_f2h s).trans (succeed_eq _ s)

/-- H2F after a dropped character (R134). -/
theorem exec_h2f_of_hexOvf {s : State} (h : s.sfc.hexOvf = true) : exec .h2f s = fail .hexOvf s :=
  if_pos h

/-- H2F on text with a byte that is no hex digit (R134). -/
theorem exec_h2f_of_bad {s : State} (hovf : s.sfc.hexOvf = false) (hbad : ∃ c ∈ s.sfc.hexb, hexval c = none) :
    exec .h2f s = fail .hexChar s := by
  rcases execH2f_cases s with ⟨h, -⟩ | ⟨-, -, he⟩ | ⟨-, h, -⟩
  · rw [hovf] at h; cases h
  · exact he
  · exact absurd hbad h

/-- H2F on text whose padding to eight characters is a word (R134). -/
theorem exec_h2f_of_hexWord {s : State} (hovf : s.sfc.hexOvf = false) {w : Word32}
    (hw : hexWord (paddedHex s.sfc.hexb) = some w) : exec .h2f s = succeed { s.sfc with flt := w } s := by
  simp [exec, execH2f, hovf, hw]

/-- Settles O38: H2F fails on HEX_OVF and on a bad character, and otherwise FLT is the word of the padded text. -/
theorem h2fReadsThePaddedHexText : Obligations.H2fReadsThePaddedHexText :=
  ⟨fun s hovf => (exec_h2f_of_hexOvf hovf).trans (fail_eq .hexOvf s),
    fun s hovf hbad => (exec_h2f_of_bad hovf hbad).trans (fail_eq .hexChar s),
    fun s _ _ _ _ _ _ _ _ hovf hdigits =>
      (exec_h2f_of_hexWord hovf (hexWord_of_map_hexval hdigits)).trans (succeed_eq _ s)⟩

/-! ### The HEX port -/

theorem busWrite_hexIn (v : Byte) (s : State) : busWrite hexInAddr v s = .next (s.withSfc (hexPortWrite v s.sfc)) :=
  busWrite_of_ne_cmd (a := hexInAddr) nofun v s

/-- Settles O18: the two cases of the port, and H2F's first one. -/
theorem hexPortAppendsUpToEight : Obligations.HexPortAppendsUpToEight := by
  refine ⟨fun s v => ⟨fun hroom => ?_, fun hfull => ?_⟩,
    fun s hovf => (exec_h2f_of_hexOvf hovf).trans (fail_eq .hexOvf s)⟩
  · rw [busWrite_hexIn, hexPortWrite_room v hroom]; rfl
  · rw [busWrite_hexIn, hexPortWrite_full v hfull]; rfl

theorem foldl_hexPortWrite {d : Sfc} (h : d.hexb.length ≤ 8) (l : List Byte) :
    l.foldl (fun d v => hexPortWrite v d) d =
      { d with
        hexb := d.hexb ++ l.take (8 - d.hexb.length)
        hexOvf := d.hexOvf || decide (8 < d.hexb.length + l.length) } :=
  foldl_boundedPort (put := fun hexb hexOvf => { d with hexb, hexOvf })
    (fun v _ _ hroom => hexPortWrite_room v hroom) (fun v _ _ hfull => hexPortWrite_full v hfull) l d.hexb d.hexOvf h

/-- Up to eight characters written into an empty HEXB are HEXB, and none is dropped. -/
theorem runEvents_hexWrites {s : State} (hempty : s.sfc.hexb = []) {l : List Byte} (hl : l.length ≤ 8) :
    runEvents (l.map (busWriteEvent hexInAddr)) s =
      .next ((s.withSfc { s.sfc with hexb := l }).withPending []) := by
  have hfold := foldl_hexPortWrite (d := s.sfc) (by simp [hempty]) l
  have hnone : ¬ 8 < l.length := Nat.not_lt.mpr hl
  simp only [hempty, List.nil_append, List.length_nil, Nat.zero_add, Nat.sub_zero, List.take_of_length_le hl, hnone,
    decide_false, Bool.or_false] at hfold
  rw [← hfold]
  exact runEvents_writes (a := hexInAddr) nofun l s

/-! ### The round trip -/

/-- The SFC's part after F2H and CLR_HEX. -/
def f2hThenClear (hc : HexCase) (d : Sfc) : Sfc :=
  { d with hexo := hexText hc d.flt, hexb := [], hexOvf := false, res := 0x00#8 }

theorem runEvents_f2h_clrHex (s : State) :
    runEvents [cmdWrite 0x05#8, cmdWrite 0x0B#8] s =
      .next ((s.withSfc (f2hThenClear s.cfg.hexCase s.sfc)).withPending []) := rfl

/-- H2F on a word's text gives that word, whatever FLT held (R136). -/
theorem runEvents_h2f_of_hexText {s : State} (hovf : s.sfc.hexOvf = false) {hc : HexCase} {w : Word32}
    (htext : s.sfc.hexb = (hexText hc w).toList) :
    runEvents [cmdWrite 0x06#8] s = .next ((s.withSfc { s.sfc with flt := w, res := 0x00#8 }).withPending []) := by
  have hword : hexWord (paddedHex s.sfc.hexb) = some w := by
    rw [htext, paddedHex_of_length Vector.length_toList, hexWord_hexText]
  have hh2f := exec_h2f_of_hexWord (s := s.withPending []) hovf hword
  exact (runEvents_cons (e := cmdWrite 0x06#8) hh2f rfl).trans rfl

/-- Settles O39: the writes leave the text in HEXB, and H2F reads FLT's old word from it, with or without the host's
word in FLT by then. -/
theorem floatHexRoundTripIsExact : Obligations.FloatHexRoundTripIsExact := by
  intro s w
  let t := (s.withSfc (f2hThenClear s.cfg.hexCase s.sfc)).withPending []
  have hwrites := runEvents_hexWrites (s := t) rfl (Vector.length_toList (xs := t.sfc.hexo)).le
  obtain ⟨x, hx⟩ := runEvents_fltForm_frame w ((t.withSfc { t.sfc with hexb := t.sfc.hexo.toList }).withPending [])
  have hoverwritten := (runEvents_append hwrites ((expand (.flt w)).map .access)).trans hx
  exact ⟨t, _, _, runEvents_f2h_clrHex s, rfl,
    (runEvents_append hwrites _).trans (runEvents_h2f_of_hexText rfl rfl), rfl, rfl, rfl,
    (runEvents_append hoverwritten _).trans (runEvents_h2f_of_hexText rfl rfl), rfl, rfl, rfl⟩

end Sys2Proof.Proofs.HexConverter
end

/-! ## The control commands and the resets (R150 to R152, R180) -/

section
namespace Sys2Proof.Proofs.Control

open Sys2Proof Sys2Proof.Machine

/-- Settles O19: NOP is `succeed` over the SFC as it stands. -/
theorem nopOnlySetsResOk : Obligations.NopOnlySetsResOk := fun s => succeed_eq s.sfc s

/-- Settles O20: a reserved command is `fail`, whatever OP it carries. -/
theorem badCommandOnlySetsRes : Obligations.BadCommandOnlySetsRes := fun s _ _ => fail_eq .badCmd s

theorem step_powerOn {s : State} {rest : List HostEvent} (h : s.bus.pending = .powerOn :: rest) :
    step s = .next (powerOnReset (s.withPending rest)) := by
  rw [step, serveNext, h]
  rfl

/-- Every location reads 0x00 after a reset: the buffers are empty, and the indexed registers hold zeros only. -/
theorem readLoc_reset (l : Loc) : readLoc l Sfc.reset = 0x00#8 := by
  cases l with
  | tag i | hexb i | bodyWin i | txWin i | rxWin i | dataWin i => exact byteAt_nil i.val
  | decAddr i | paddr i | hexo i => exact Vector.getElem_replicate i.isLt
  | flt i => exact BitVec.extractLsb'_zero
  | _ => rfl

/-- Settles O21: SRST and a power-on reset both put `Sfc.reset`, whose RES is OK already, for the SFC's state. -/
theorem bothResetsLeaveTheResetTuple : Obligations.BothResetsLeaveTheResetTuple :=
  ⟨Sfc.reset,
    ⟨rfl, rfl, rfl, rfl, rfl, rfl, rfl, rfl, rfl, rfl, rfl, rfl, rfl, rfl, rfl, rfl, rfl, rfl, rfl⟩,
    fun s => succeed_eq Sfc.reset s, fun _ _ hp => step_powerOn hp, rfl, fun a => readLoc_reset (locate a)⟩

end Sys2Proof.Proofs.Control
end

/-! ## Result codes: how a command can end, and what a failure writes (R160, R162, R163) -/

section
namespace Sys2Proof.Proofs.ResultCodes

open Sys2Proof Sys2Proof.Machine Sys2Proof.Proofs.ReservedCodes Sys2Proof.Proofs.PackedAscii
  Sys2Proof.Proofs.Checksum Sys2Proof.Proofs.FrameCommands

/-- `CommandEnd s i c d`: run from `s`, the command `i` may end with the result code `c`, over the SFC's state `d`
into which only RES is still to be written. Each failure stands with its command and its cause (R160) and with the
state it leaves (R163). A success may leave any `d`: what each command writes then is said by its own equation. -/
inductive CommandEnd (s : State) : Instr → ResCode → Sfc → Prop
  | ok {i : Instr} (d : Sfc) (hdefined : ∀ op, i ≠ .badcmd op) : CommandEnd s i .ok d
  | badCmd (op : Byte) : CommandEnd s (.badcmd op) .badCmd s.sfc
  | tagShort (hlen : s.sfc.tag.length ≠ 8) : CommandEnd s .pack .tagShort s.sfc
  | csumOvf (hovf : s.sfc.bodyOvf = true) : CommandEnd s .csum .bodyOvf s.sfc
  | fencOvf (hovf : s.sfc.bodyOvf = true) : CommandEnd s .fenc .bodyOvf s.sfc
  | rxOvf (hovf : s.sfc.rxOvf = true) : CommandEnd s .fdec .rxOvf s.sfc
  | decShort (hlen : (strip s.sfc.rx).length < 8) :
      CommandEnd s .fdec .decShort (decodeShort (strip s.sfc.rx) s.sfc)
  | decBounds (hlen : 8 ≤ (strip s.sfc.rx).length)
      (hpast : (strip s.sfc.rx).length < 8 + (byteAt (strip s.sfc.rx) 7).toNat) :
      CommandEnd s .fdec .decBounds (decodeHeader (strip s.sfc.rx) [] s.sfc)
  | hexOvf (hovf : s.sfc.hexOvf = true) : CommandEnd s .h2f .hexOvf s.sfc
  | hexChar (hbad : ∃ c ∈ s.sfc.hexb, hexval c = none) : CommandEnd s .h2f .hexChar s.sfc

/-- Every command completes in one of the ways `CommandEnd` lists. -/
theorem exec_commandEnd (i : Instr) (s : State) : ∃ c d, CommandEnd s i c d ∧ exec i s = complete d c s := by
  cases i with
  | badcmd op => exact ⟨_, _, .badCmd op, rfl⟩
  | pack =>
    by_cases hlen : s.sfc.tag.length = 8
    · exact ⟨_, _, .ok _ nofun, exec_pack_of_length_eq hlen⟩
    · exact ⟨_, _, .tagShort hlen, exec_pack_of_length_ne hlen⟩
  | csum =>
    cases hovf : s.sfc.bodyOvf with
    | true => exact ⟨_, _, .csumOvf hovf, exec_csum_of_bodyOvf hovf⟩
    | false => exact ⟨_, _, .ok _ nofun, exec_csum_of_not_bodyOvf hovf⟩
  | fenc =>
    cases hovf : s.sfc.bodyOvf with
    | true => exact ⟨_, _, .fencOvf hovf, exec_fenc_of_bodyOvf hovf⟩
    | false => exact ⟨_, _, .ok _ nofun, exec_fenc_of_not_bodyOvf hovf⟩
  | fdec =>
    rcases execFdec_cases s with ⟨hovf, he⟩ | ⟨-, hlen, he⟩ | ⟨-, hlen, hpast, he⟩ | ⟨-, -, he⟩
    · exact ⟨_, _, .rxOvf hovf, he⟩
    · exact ⟨_, _, .decShort hlen, he⟩
    · exact ⟨_, _, .decBounds hlen hpast, he⟩
    · exact ⟨_, _, .ok _ nofun, he⟩
  | h2f =>
    rcases execH2f_cases s with ⟨hovf, he⟩ | ⟨-, hbad, he⟩ | ⟨-, -, _, -, he⟩
    · exact ⟨_, _, .hexOvf hovf, he⟩
    · exact ⟨_, _, .hexChar hbad, he⟩
    · exact ⟨_, _, .ok _ nofun, he⟩
  | nop | f2h | clrTag | clrBody | clrRx | clrHex | srst => exact ⟨_, _, .ok _ nofun, rfl⟩

/-- A command's next state is the one its end describes, with the end's code in RES. -/
theorem commandEnd_of_exec {i : Instr} {s t : State} (h : exec i s = .next t) :
    ∃ c d, CommandEnd s i c d ∧ t = s.withSfc { d with res := c.code } := by
  obtain ⟨c, d, hend, he⟩ := exec_commandEnd i s
  exact ⟨c, d, hend, Host.Outcome.next.inj (h.symm.trans he)⟩

/-- A list of at least eight bytes, with the eight written out. -/
theorem exists_header_of_eight_le : ∀ {l : List Byte}, 8 ≤ l.length →
    ∃ d a0 a1 a2 a3 a4 c n rest, l = d :: a0 :: a1 :: a2 :: a3 :: a4 :: c :: n :: rest
  | d :: a0 :: a1 :: a2 :: a3 :: a4 :: c :: n :: rest, _ => ⟨d, a0, a1, a2, a3, a4, c, n, rest, rfl⟩

/-- The header FDEC reads is the first eight bytes of the stripped response (R114). -/
theorem take_eight_eq_byteAt {l : List Byte} (h : 8 ≤ l.length) :
    l.take 8 = [byteAt l 0, byteAt l 1, byteAt l 2, byteAt l 3, byteAt l 4, byteAt l 5, byteAt l 6, byteAt l 7] := by
  obtain ⟨d, a0, a1, a2, a3, a4, c, n, rest, rfl⟩ := exists_header_of_eight_le h
  rfl

/-- Settles O40: the ways a command can end are the table's rows, and the invariant gives the records of the rows whose
cause is a short tag or an overflow flag. -/
theorem resultCodesHaveTheirCause : Obligations.ResultCodesHaveTheirCause := by
  intro i s t ⟨_, hinv⟩ h
  obtain ⟨hbody, hrx, hhex⟩ := hinv.ovf_full
  obtain ⟨c, d, hend, rfl⟩ := commandEnd_of_exec h
  cases hend with
  | ok d hdefined => exact .inl ⟨rfl, hdefined⟩
  | badCmd op => exact .inr <| .inl ⟨rfl, op, rfl⟩
  | tagShort hlen => exact .inr <| .inr <| .inl ⟨rfl, rfl, hinv.tag_len.lt_of_ne hlen⟩
  | csumOvf hovf => exact .inr <| .inr <| .inr <| .inl ⟨rfl, .inl rfl, hovf, hbody hovf⟩
  | fencOvf hovf => exact .inr <| .inr <| .inr <| .inl ⟨rfl, .inr rfl, hovf, hbody hovf⟩
  | rxOvf hovf => exact .inr <| .inr <| .inr <| .inr <| .inl ⟨rfl, rfl, hovf, hrx hovf⟩
  | decShort hlen => exact .inr <| .inr <| .inr <| .inr <| .inr <| .inl ⟨rfl, rfl, hlen, rfl⟩
  | decBounds hlen hpast =>
    exact .inr <| .inr <| .inr <| .inr <| .inr <| .inr <| .inl
      ⟨rfl, rfl, rfl, hpast, (take_eight_eq_byteAt hlen).symm⟩
  | hexOvf hovf =>
    exact .inr <| .inr <| .inr <| .inr <| .inr <| .inr <| .inr <| .inl ⟨rfl, rfl, hovf, hhex hovf⟩
  | hexChar hbad =>
    exact .inr <| .inr <| .inr <| .inr <| .inr <| .inr <| .inr <| .inr ⟨rfl, rfl, hbad⟩

/-- A command that ends with one of the codes of R163's first row leaves the SFC's state as it was, RES apart. -/
theorem CommandEnd.sfc_eq {s : State} {i : Instr} {c : ResCode} {d : Sfc} (h : CommandEnd s i c d)
    (hc : c.code ∈ [0x01#8, 0x02#8, 0x03#8, 0x04#8, 0x07#8, 0x08#8]) : d = s.sfc := by
  cases h with
  | ok | decShort | decBounds => exact absurd hc (by decide)
  | badCmd | tagShort | csumOvf | fencOvf | rxOvf | hexOvf | hexChar => rfl

/-- Only a response without a byte count ends a command with E_DEC_SHORT. -/
theorem CommandEnd.sfc_eq_of_decShort {s : State} {i : Instr} {d : Sfc} (h : CommandEnd s i .decShort d) :
    d = decodeShort (strip s.sfc.rx) s.sfc := by
  cases h; rfl

/-- Only a response with a whole header ends a command with E_DEC_BOUNDS. -/
theorem CommandEnd.sfc_eq_of_decBounds {s : State} {i : Instr} {d : Sfc} (h : CommandEnd s i .decBounds d) :
    8 ≤ (strip s.sfc.rx).length ∧ d = decodeHeader (strip s.sfc.rx) [] s.sfc := by
  cases h with
  | decBounds hlen _ => exact ⟨hlen, rfl⟩

/-- Settles O42: the code left in RES tells the end of the command, and with it the state the end leaves. -/
theorem failuresWriteExactlyTheListedState : Obligations.FailuresWriteExactlyTheListedState := by
  intro i s t h
  obtain ⟨c, d, hend, rfl⟩ := commandEnd_of_exec h
  refine ⟨fun hres => ?_, fun hres => ?_, fun hres => ?_⟩
  · rw [hend.sfc_eq hres]
    rfl
  · obtain rfl : c = .decShort := ResCode.code_injective hres
    rw [hend.sfc_eq_of_decShort]
    rfl
  · obtain rfl : c = .decBounds := ResCode.code_injective hres
    obtain ⟨hlen, rfl⟩ := hend.sfc_eq_of_decBounds
    obtain ⟨d, a0, a1, a2, a3, a4, c, n, rest, hst⟩ := exists_header_of_eight_le hlen
    refine ⟨d, a0, a1, a2, a3, a4, c, n, rest, hst, ?_⟩
    rw [hst]
    rfl

/-! ### The order of the checks -/

theorem any_isNone_hexval_iff (l : List Byte) :
    l.any (fun c => (hexval c).isNone) = true ↔ ∃ c ∈ l, hexval c = none := by
  simp only [List.any_eq_true, Option.isNone_iff_eq_none]

theorem exec_pack_res (s : State) :
    ∃ t, exec .pack s = .next t ∧ t.sfc.res = if s.sfc.tag.length ≠ 8 then 0x02#8 else 0x00#8 := by
  by_cases hlen : s.sfc.tag.length = 8
  · exact ⟨_, exec_pack_of_length_eq hlen, (if_neg (not_not_intro hlen)).symm⟩
  · exact ⟨_, exec_pack_of_length_ne hlen, (if_pos hlen).symm⟩

theorem exec_csum_res (s : State) :
    ∃ t, exec .csum s = .next t ∧ t.sfc.res = if s.sfc.bodyOvf then 0x03#8 else 0x00#8 := by
  cases hovf : s.sfc.bodyOvf with
  | true => exact ⟨_, exec_csum_of_bodyOvf hovf, rfl⟩
  | false => exact ⟨_, exec_csum_of_not_bodyOvf hovf, rfl⟩

theorem exec_fenc_res (s : State) :
    ∃ t, exec .fenc s = .next t ∧ t.sfc.res = if s.sfc.bodyOvf then 0x03#8 else 0x00#8 := by
  cases hovf : s.sfc.bodyOvf with
  | true => exact ⟨_, exec_fenc_of_bodyOvf hovf, rfl⟩
  | false => exact ⟨_, exec_fenc_of_not_bodyOvf hovf, rfl⟩

/-- FDEC looks at RX_OVF, then for a byte count, then at the slice the byte count asks for (R162). -/
theorem exec_fdec_res (s : State) :
    ∃ t, exec .fdec s = .next t ∧ t.sfc.res =
      if s.sfc.rxOvf then 0x04#8
      else if (strip s.sfc.rx).length < 8 then 0x05#8
      else if (strip s.sfc.rx).length < 8 + (byteAt (strip s.sfc.rx) 7).toNat then 0x06#8
      else 0x00#8 := by
  have hnot : s.sfc.rxOvf = false → ¬ s.sfc.rxOvf = true := Bool.eq_false_iff.mp
  rcases execFdec_cases s with ⟨hovf, he⟩ | ⟨hovf, hlen, he⟩ | ⟨hovf, hlen, hpast, he⟩ | ⟨hovf, hfits, he⟩
  · exact ⟨_, he, (if_pos hovf).symm⟩
  · exact ⟨_, he, ((if_neg (hnot hovf)).trans (if_pos hlen)).symm⟩
  · have hheader : ¬ (strip s.sfc.rx).length < 8 := Nat.not_lt.mpr hlen
    exact ⟨_, he, ((if_neg (hnot hovf)).trans ((if_neg hheader).trans (if_pos hpast))).symm⟩
  · have hheader : ¬ (strip s.sfc.rx).length < 8 := Nat.not_lt.mpr ((Nat.le_add_right ..).trans hfits)
    exact ⟨_, he, ((if_neg (hnot hovf)).trans ((if_neg hheader).trans (if_neg (Nat.not_lt.mpr hfits)))).symm⟩

/-- H2F looks at HEX_OVF before it looks at the characters (R162). -/
theorem exec_h2f_res (s : State) :
    ∃ t, exec .h2f s = .next t ∧ t.sfc.res =
      if s.sfc.hexOvf then 0x07#8
      else if s.sfc.hexb.any (fun c => (hexval c).isNone) then 0x08#8
      else 0x00#8 := by
  simp only [any_isNone_hexval_iff]
  have hnot : s.sfc.hexOvf = false → ¬ s.sfc.hexOvf = true := Bool.eq_false_iff.mp
  rcases execH2f_cases s with ⟨hovf, he⟩ | ⟨hovf, hbad, he⟩ | ⟨hovf, hgood, _, -, he⟩
  · exact ⟨_, he, (if_pos hovf).symm⟩
  · exact ⟨_, he, ((if_neg (hnot hovf)).trans (if_pos hbad)).symm⟩
  · exact ⟨_, he, ((if_neg (hnot hovf)).trans (if_neg hgood)).symm⟩

/-- Settles O41: one lemma per command with a failure of its own; a reserved OP's command has no other end. -/
theorem firstFailureInOrderIsReported : Obligations.FirstFailureInOrderIsReported := fun s =>
  ⟨exec_pack_res s, exec_csum_res s, exec_fenc_res s, exec_fdec_res s, exec_h2f_res s,
    fun op hop => ⟨_, congrArg (exec · s) ((decodeOp_eq_badcmd_iff op).2 hop), rfl⟩⟩

end Sys2Proof.Proofs.ResultCodes
end

/-! ## The overflow flags along a run: a flag set over a full buffer stays until the buffer is cleared (R37, R194) -/

section
namespace Sys2Proof.Proofs.OverflowRuns

open Sys2Proof Sys2Proof.Machine Sys2Proof.Proofs.EventOrder Sys2Proof.Proofs.Checksum
  Sys2Proof.Proofs.FrameCommands Sys2Proof.Proofs.BoundedPorts Sys2Proof.Proofs.HexConverter

/-- The three buffers with an overflow flag (R37). -/
inductive FlaggedBuffer
  | body | rx | hexb

namespace FlaggedBuffer

/-- The buffer's bytes (R24). -/
def bytes (b : FlaggedBuffer) (d : Sfc) : List Byte :=
  match b with
  | body => d.body
  | rx => d.rx
  | hexb => d.hexb

/-- The buffer's overflow flag (R37). -/
def flag (b : FlaggedBuffer) (d : Sfc) : Bool :=
  match b with
  | body => d.bodyOvf
  | rx => d.rxOvf
  | hexb => d.hexOvf

/-- How many bytes the buffer holds before its port drops one (R24). -/
def capacity (b : FlaggedBuffer) (cfg : Config) : Nat :=
  match b with
  | body => cfg.bodyMax
  | rx => cfg.rxMax
  | hexb => 8

/-- The port that writes to the buffer (R51). -/
def port (b : FlaggedBuffer) : Loc :=
  match b with
  | body => .bodyIn
  | rx => .rxIn
  | hexb => .hexIn

/-- The command that empties the buffer and clears its flag (R118, R119, R135). -/
def clearCommand (b : FlaggedBuffer) : Instr :=
  match b with
  | body => .clrBody
  | rx => .clrRx
  | hexb => .clrHex

/-- The events that empty the buffer: its clear command and the two resets. -/
def clearingEvents (b : FlaggedBuffer) : List HostEvent :=
  [cmdWrite (opcodeOf b.clearCommand), cmdWrite 0x0F#8, .powerOn]

end FlaggedBuffer

open FlaggedBuffer

section
variable {b : FlaggedBuffer} {s t : State}

/-! ### Bus writes other than commands -/

/-- A write to any location but its port leaves a buffer and its flag as they are. -/
theorem writeLoc_of_ne_port {l : Loc} (h : l ≠ b.port) (cfg : Config) (v : Byte) (d : Sfc) :
    b.flag (writeLoc cfg l v d) = b.flag d ∧ b.bytes (writeLoc cfg l v d) = b.bytes d := by
  cases l with
  | bodyIn =>
    cases b with
    | body => exact absurd rfl h
    | rx | hexb => rw [writeLoc, bodyPortWrite]; split <;> exact ⟨rfl, rfl⟩
  | rxIn =>
    cases b with
    | rx => exact absurd rfl h
    | body | hexb => rw [writeLoc, rxPortWrite]; split <;> exact ⟨rfl, rfl⟩
  | hexIn =>
    cases b with
    | hexb => exact absurd rfl h
    | body | rx => rw [writeLoc, hexPortWrite]; split <;> exact ⟨rfl, rfl⟩
  | _ => exact ⟨rfl, rfl⟩

/-- A port with room in its buffer leaves the flag as it is. -/
theorem writeLoc_port_room {cfg : Config} {d : Sfc} (h : (b.bytes d).length < b.capacity cfg) (v : Byte) :
    b.flag (writeLoc cfg b.port v d) = b.flag d := by
  cases b with
  | body => rw [port, writeLoc, bodyPortWrite_room v h]; rfl
  | rx => rw [port, writeLoc, rxPortWrite_room v h]; rfl
  | hexb => rw [port, writeLoc, hexPortWrite_room v h]; rfl

/-- A port over a full buffer drops the byte and sets the flag. -/
theorem writeLoc_port_full {cfg : Config} {d : Sfc} (h : b.capacity cfg ≤ (b.bytes d).length) (v : Byte) :
    b.flag (writeLoc cfg b.port v d) = true ∧ b.bytes (writeLoc cfg b.port v d) = b.bytes d := by
  cases b with
  | body => rw [port, writeLoc, bodyPortWrite_full v h]; exact ⟨rfl, rfl⟩
  | rx => rw [port, writeLoc, rxPortWrite_full v h]; exact ⟨rfl, rfl⟩
  | hexb => rw [port, writeLoc, hexPortWrite_full v h]; exact ⟨rfl, rfl⟩

/-- No location's write effect clears a flag, and none changes a full buffer. -/
theorem writeLoc_keeps_flag {d : Sfc} (hovf : b.flag d = true) (cfg : Config) (l : Loc) (v : Byte) :
    b.flag (writeLoc cfg l v d) = true ∧
      (b.capacity cfg ≤ (b.bytes d).length → b.bytes (writeLoc cfg l v d) = b.bytes d) := by
  by_cases hl : l = b.port
  · subst hl
    rcases Nat.lt_or_ge (b.bytes d).length (b.capacity cfg) with hroom | hfull
    · exact ⟨(writeLoc_port_room hroom v).trans hovf, fun hfull => absurd hroom hfull.not_gt⟩
    · obtain ⟨hflag, hbytes⟩ := writeLoc_port_full hfull v
      exact ⟨hflag, fun _ => hbytes⟩
  · obtain ⟨hflag, hbytes⟩ := writeLoc_of_ne_port hl cfg v d
    exact ⟨hflag.trans hovf, fun _ => hbytes⟩

/-! ### Commands -/

/-- Every command but a buffer's clear command and SRST leaves the buffer and its flag as they are (R37, R192). -/
theorem exec_of_ne_clear {i : Instr} (hclr : i ≠ b.clearCommand) (hsrst : i ≠ .srst) (h : exec i s = .next t) :
    b.flag t.sfc = b.flag s.sfc ∧ b.bytes t.sfc = b.bytes s.sfc := by
  cases i with
  | srst => exact absurd rfl hsrst
  | clrBody =>
    cases b with
    | body => exact absurd rfl hclr
    | rx | hexb => cases h; exact ⟨rfl, rfl⟩
  | clrRx =>
    cases b with
    | rx => exact absurd rfl hclr
    | body | hexb => cases h; exact ⟨rfl, rfl⟩
  | clrHex =>
    cases b with
    | hexb => exact absurd rfl hclr
    | body | rx => cases h; exact ⟨rfl, rfl⟩
  | pack => simp only [exec, execPack] at h; split at h <;> cases h <;> exact ⟨rfl, rfl⟩
  | csum => simp only [exec, execCsum] at h; split at h <;> cases h <;> exact ⟨rfl, rfl⟩
  | fenc => simp only [exec, execFenc] at h; split at h <;> cases h <;> exact ⟨rfl, rfl⟩
  | fdec => obtain ⟨_, _, _, _, _, _, _, rfl⟩ := exec_fdec_frame h; exact ⟨rfl, rfl⟩
  | h2f =>
    rcases execH2f_cases s with ⟨-, he⟩ | ⟨-, -, he⟩ | ⟨-, -, _, -, he⟩ <;> cases h.symm.trans he <;> exact ⟨rfl, rfl⟩
  | nop | f2h | clrTag | badcmd _ => cases h; exact ⟨rfl, rfl⟩

theorem bytes_of_exec_clear (h : exec b.clearCommand s = .next t) : b.bytes t.sfc = [] := by
  cases b <;> cases h <;> rfl

theorem bytes_reset : b.bytes Sfc.reset = [] := by
  cases b <;> rfl

/-! ### Events, steps and runs -/

/-- What a bus write can do to a buffer whose flag is set. -/
theorem busWrite_keeps_flag {a : Addr} {v : Byte} (hovf : b.flag s.sfc = true) (h : busWrite a v s = .next t) :
    (busWriteEvent a v ∈ b.clearingEvents ∧ b.bytes t.sfc = []) ∨
      (b.flag t.sfc = true ∧ (b.capacity s.cfg ≤ (b.bytes s.sfc).length → b.bytes t.sfc = b.bytes s.sfc)) := by
  by_cases ha : locate a = .cmd
  · obtain rfl := (locate_eq_cmd_iff a).1 ha
    have hop := opcodeOf_decodeOp v
    rw [busWrite_cmd] at h
    by_cases hclr : decodeOp v = b.clearCommand
    · rw [hclr] at hop h
      exact .inl ⟨hop ▸ List.mem_cons_self, bytes_of_exec_clear h⟩
    by_cases hsrst : decodeOp v = .srst
    · rw [hsrst] at hop h
      cases h
      exact .inl ⟨hop ▸ List.mem_cons_of_mem _ List.mem_cons_self, bytes_reset⟩
    obtain ⟨hflag, hbytes⟩ := exec_of_ne_clear hclr hsrst h
    exact .inr ⟨hflag.trans hovf, fun _ => hbytes⟩
  · rw [busWrite_of_ne_cmd ha] at h
    cases h
    exact .inr (writeLoc_keeps_flag hovf s.cfg (locate a) v)

/-- An event either empties a buffer whose flag is set, and is one of the three that may, or leaves the flag set and a
full buffer's bytes as they are. -/
theorem runEvent_keeps_flag {e : HostEvent} (hovf : b.flag s.sfc = true) (h : runEvent e s = .next t) :
    (e ∈ b.clearingEvents ∧ b.bytes t.sfc = []) ∨
      (b.flag t.sfc = true ∧ (b.capacity s.cfg ≤ (b.bytes s.sfc).length → b.bytes t.sfc = b.bytes s.sfc)) := by
  rcases e with (a | ⟨a, v⟩) | _
  · cases h
    exact .inr ⟨hovf, fun _ => rfl⟩
  · exact busWrite_keeps_flag hovf h
  · cases h
    exact .inl ⟨by simp [clearingEvents], bytes_reset⟩

/-- No event changes the parameters (R7). -/
theorem runEvent_cfg {e : HostEvent} (h : runEvent e s = .next t) : t.cfg = s.cfg := by
  rcases e with (a | ⟨a, v⟩) | _
  · cases h; rfl
  · obtain ⟨d, hd⟩ := busWrite_next a v s
    cases h.symm.trans hd
    rfl
  · cases h; rfl

/-- A step that clears a flag empties the flag's buffer. -/
theorem bytes_of_step_clears_flag (h : step s = .next t) (hset : b.flag s.sfc = true) (hclear : b.flag t.sfc = false) :
    b.bytes t.sfc = [] := by
  rw [step, serveNext] at h
  split at h
  case h_1 =>
    cases h
    exact absurd hset (Bool.eq_false_iff.1 hclear)
  case h_2 e rest _ =>
    rcases runEvent_keeps_flag (s := s.withPending rest) hset h with ⟨-, hempty⟩ | ⟨hkept, -⟩
    · exact hempty
    · exact absurd hkept (Bool.eq_false_iff.1 hclear)

/-- Along a run without the events that empty it, a full buffer with its flag set keeps its bytes and its flag. -/
theorem runEvents_keeps_overflow {evs : List HostEvent} (h : runEvents evs s = .next t)
    (hevs : evs.Disjoint b.clearingEvents) (hovf : b.flag s.sfc = true)
    (hfull : b.capacity s.cfg ≤ (b.bytes s.sfc).length) :
    b.flag t.sfc = true ∧ b.bytes t.sfc = b.bytes s.sfc := by
  induction evs generalizing s with
  | nil =>
    cases h
    exact ⟨hovf, rfl⟩
  | cons e evs ih =>
    obtain ⟨he, hevs⟩ := List.disjoint_cons_left.1 hevs
    obtain ⟨u, -, hu⟩ := runEvent_withPending e s
    rw [runEvents_cons (hu evs) rfl] at h
    have hcfg : u.cfg = s.cfg := runEvent_cfg (s := s.withPending evs) (t := u.withPending evs) (hu evs)
    rcases runEvent_keeps_flag (s := s.withPending evs) hovf (hu evs) with ⟨hclears, -⟩ | ⟨hflag, hkeeps⟩
    · exact absurd hclears he
    · have hbytes : b.bytes u.sfc = b.bytes s.sfc := hkeeps hfull
      have hfull : b.capacity u.cfg ≤ (b.bytes u.sfc).length := by rwa [hcfg, hbytes]
      obtain ⟨hflag, hrest⟩ := ih h hevs hflag hfull
      exact ⟨hflag, hrest.trans hbytes⟩

/-- Under the invariant a flag is set over a full buffer only (R37). -/
theorem full_of_flag (hinv : s.Inv) (hovf : b.flag s.sfc = true) : b.capacity s.cfg ≤ (b.bytes s.sfc).length := by
  obtain ⟨hbody, hrx, hhex⟩ := hinv.2.ovf_full
  cases b with
  | body => exact (hbody hovf).ge
  | rx => exact (hrx hovf).ge
  | hexb => exact (hhex hovf).ge

theorem disjoint_clearingEvents {evs : List HostEvent} (hclr : cmdWrite (opcodeOf b.clearCommand) ∉ evs)
    (hsrst : cmdWrite 0x0F#8 ∉ evs) (hpower : HostEvent.powerOn ∉ evs) : evs.Disjoint b.clearingEvents := by
  simp [clearingEvents, List.disjoint_cons_right, hclr, hsrst, hpower]

end

/-- Settles O50: by induction on the run the flag and the full buffer under it stay, and on a set flag the commands
that read the buffer are `fail`. -/
theorem overflowIsStickyAlongEveryRun : Obligations.OverflowIsStickyAlongEveryRun := by
  refine ⟨fun s t h => ⟨bytes_of_step_clears_flag (b := .body) h, bytes_of_step_clears_flag (b := .rx) h,
    bytes_of_step_clears_flag (b := .hexb) h⟩, fun s t evs hinv h hsrst hpower => ?_⟩
  have hkept (b : FlaggedBuffer) (hovf : b.flag s.sfc = true) (hclr : cmdWrite (opcodeOf b.clearCommand) ∉ evs) :
      b.flag t.sfc = true ∧ b.bytes t.sfc = b.bytes s.sfc :=
    runEvents_keeps_overflow h (disjoint_clearingEvents hclr hsrst hpower) hovf (full_of_flag hinv hovf)
  refine ⟨fun hovf hclr => ?_, fun hovf hclr => ?_, fun hovf hclr => ?_⟩
  · obtain ⟨hflag, hbytes⟩ := hkept .body hovf hclr
    exact ⟨hflag, hbytes, (exec_csum_of_bodyOvf hflag).trans (fail_eq .bodyOvf t),
      (exec_fenc_of_bodyOvf hflag).trans (fail_eq .bodyOvf t)⟩
  · obtain ⟨hflag, hbytes⟩ := hkept .rx hovf hclr
    exact ⟨hflag, hbytes, (exec_fdec_of_rxOvf hflag).trans (fail_eq .rxOvf t)⟩
  · obtain ⟨hflag, hbytes⟩ := hkept .hexb hovf hclr
    exact ⟨hflag, hbytes, (exec_h2f_of_hexOvf hflag).trans (fail_eq .hexOvf t)⟩

end Sys2Proof.Proofs.OverflowRuns
end

/-! ## Results are snapshots: what a change of an input can write (R191) -/

section
namespace Sys2Proof.Proofs.Snapshots

open Sys2Proof Sys2Proof.Machine Sys2Proof.Proofs.RegisterMap

/-- From `d` to `e` only the inputs, the overflow flags and RES may differ; so each result, FLT apart, which is both an
input and a result, is the same in both. -/
def OnlyInputsDiffer (d e : Sfc) : Prop :=
  e = { d with
    tag := e.tag, body := e.body, rx := e.rx, flt := e.flt, hexb := e.hexb
    bodyOvf := e.bodyOvf, rxOvf := e.rxOvf, hexOvf := e.hexOvf, res := e.res }

/-- The ports and FLT's bytes write inputs and overflow flags only (R55), and of these FLT's bytes alone write FLT
(R131). -/
theorem onlyInputsDiffer_writeLoc (cfg : Config) (l : Loc) (v : Byte) (d : Sfc) :
    OnlyInputsDiffer d (writeLoc cfg l v d) ∧ ((∀ i, l ≠ .flt i) → (writeLoc cfg l v d).flt = d.flt) := by
  cases l with
  | flt i => exact ⟨rfl, fun hne => absurd rfl (hne i)⟩
  | bodyIn => rw [writeLoc, bodyPortWrite]; split <;> exact ⟨rfl, fun _ => rfl⟩
  | rxIn => rw [writeLoc, rxPortWrite]; split <;> exact ⟨rfl, fun _ => rfl⟩
  | hexIn => rw [writeLoc, hexPortWrite]; split <;> exact ⟨rfl, fun _ => rfl⟩
  | _ => exact ⟨rfl, fun _ => rfl⟩

theorem locate_ne_flt {a : Addr} (h : ¬ (0x001C ≤ a.toNat ∧ a.toNat ≤ 0x001F)) (i : Fin 4) : locate a ≠ .flt i := by
  refine locate_ne rfl ?_
  rintro rfl
  rw [toNat_indexed 0x001C i (by decide)] at h
  omega

/-- The clear commands and H2F write inputs, overflow flags and RES only, and of these H2F alone writes FLT. -/
theorem onlyInputsDiffer_exec {i : Instr} (hi : i ∈ [.clrTag, .clrBody, .clrRx, .clrHex, .h2f]) {s t : State}
    (h : exec i s = .next t) : OnlyInputsDiffer s.sfc t.sfc ∧ (i ≠ .h2f → t.sfc.flt = s.sfc.flt) := by
  cases i with
  | clrTag | clrBody | clrRx | clrHex => cases h; exact ⟨rfl, fun _ => rfl⟩
  | h2f =>
    refine ⟨?_, fun hne => absurd rfl hne⟩
    rcases execH2f_cases s with ⟨-, he⟩ | ⟨-, -, he⟩ | ⟨-, -, _, -, he⟩ <;> cases h.symm.trans he <;> rfl
  | _ => simp at hi

/-- Settles O51: the bus writes and the commands named change inputs only, and each result is read off the equation
that says so. -/
theorem resultsAreSnapshots : Obligations.ResultsAreSnapshots := by
  refine ⟨fun s t a v hcmd h => ?_, fun s t i hi h => ?_⟩
  · rw [busWrite_of_ne_cmd (locate_ne rfl hcmd)] at h
    cases h
    obtain ⟨hsame, hflt⟩ := onlyInputsDiffer_writeLoc s.cfg (locate a) v s.sfc
    rw [State.withSfc_sfc, hsame]
    exact ⟨rfl, rfl, rfl, rfl, rfl, rfl, rfl, rfl, rfl, rfl, fun ha => hflt (locate_ne_flt ha)⟩
  · obtain ⟨hsame, hflt⟩ := onlyInputsDiffer_exec hi h
    rw [hsame]
    exact ⟨rfl, rfl, rfl, rfl, rfl, rfl, rfl, rfl, rfl, rfl, hflt⟩

end Sys2Proof.Proofs.Snapshots
end

/-! ## A buffer's byte within its length (R53) -/

section
namespace Sys2Proof.Proofs.BufferBytes

open Sys2Proof Sys2Proof.Machine

theorem byteAt_eq_getElem {l : List Byte} {i : Nat} (h : i < l.length) : byteAt l i = l[i] :=
  List.getD_eq_getElem l _ h

theorem byteAt_mem {l : List Byte} {i : Nat} (h : i < l.length) : byteAt l i ∈ l :=
  byteAt_eq_getElem h ▸ List.getElem_mem h

end Sys2Proof.Proofs.BufferBytes
end

/-! ## Commands and their bytes, and the step that runs one (R70 to R74) -/

section
namespace Sys2Proof.Proofs.CommandCodes

open Sys2Proof Sys2Proof.Machine Sys2Proof.Proofs.ReservedCodes Sys2Proof.Proofs.BoundedPorts

/-- The OP of a well-formed command decodes to it (R71, R73). -/
theorem decodeOp_opcodeOf {i : Instr} (h : i.WellFormed) : decodeOp (opcodeOf i) = i := by
  cases i with
  | badcmd op => exact (Laws.DecodeEncode.badcmd op).2 h
  | _ => rfl

/-- What decodes begins with its one byte (R74). -/
theorem decode_eq_ok_iff {bytes rest : List Byte} {i : Instr} :
    decode bytes = .ok (i, rest) ↔ ∃ op, bytes = op :: rest ∧ decodeOp op = i := by
  cases bytes with
  | nil => simp [decode]
  | cons op tail => simp [decode, and_comm, eq_comm]

/-- Settles O2: a command is one byte, and on it `decodeOp` and `opcodeOf` undo each other. -/
theorem commandDecodeEncodeAgree : Obligations.CommandDecodeEncodeAgree := by
  refine ⟨fun i rest hwf => decode_eq_ok_iff.2 ⟨opcodeOf i, rfl, decodeOp_opcodeOf hwf⟩, fun bytes rest i h => ?_⟩
  obtain ⟨op, rfl, rfl⟩ := decode_eq_ok_iff.1 h
  exact ⟨wellFormed_decodeOp op, congrArg (· :: rest) (opcodeOf_decodeOp op)⟩

/-- Settles O1: the twelve words evaluate. -/
theorem opcodeMapDecodesItsTwelveWords : Obligations.OpcodeMapDecodesItsTwelveWords :=
  ⟨rfl, rfl, rfl, rfl, rfl, rfl, rfl, rfl, rfl, rfl, rfl, rfl⟩

/-- Settles O7: the step serves the write, and a write to CMD runs the command of its byte. -/
theorem stepRunsTheDecodedCommand : Obligations.StepRunsTheDecodedCommand := by
  intro s op i rest hp hdecode
  obtain ⟨_, hop, rfl⟩ := decode_eq_ok_iff.1 hdecode
  cases hop
  exact (BusAccess.step_write hp).trans (busWrite_cmd op _)

end Sys2Proof.Proofs.CommandCodes
end

/-! ## The invariant: every port, command and event keeps it (R24, R33, R37, R112, R116, R160) -/

section
namespace Sys2Proof.Proofs.Invariant

open Sys2Proof Sys2Proof.Machine Sys2Proof.Proofs.PackedAscii Sys2Proof.Proofs.Checksum
  Sys2Proof.Proofs.BufferBytes

/-! ### Reset -/

/-- The reset tuple meets the invariant under any parameters. -/
theorem inv_reset (c : Config) : Sfc.reset.Inv c where
  tag_len := Nat.zero_le _
  body_len := Nat.zero_le _
  rx_len := Nat.zero_le _
  slen_le := Nat.zero_le _
  hexb_len := Nat.zero_le _
  tx_frame := .inl rfl
  data_len := .inl rfl
  no_sync := by decide
  res_code := ⟨.ok, rfl⟩
  ovf_full := ⟨nofun, nofun, nofun⟩

/-- Settles O43: the reset tuple meets the invariant, and the parameters of `State.reset` are legal. -/
theorem resetMeetsTheInvariant : Obligations.ResetMeetsTheInvariant :=
  ⟨fun c hlegal => ⟨hlegal, inv_reset c⟩, by decide, inv_reset _⟩

section
variable {c : Config} {d : Sfc}

/-! ### Ports and FLT's bytes -/

theorem inv_tagPortWrite (h : d.Inv c) (v : Byte) : (tagPortWrite v d).Inv c :=
  { h with tag_len := lastN_length_le 8 _ }

theorem inv_bodyPortWrite (h : d.Inv c) (v : Byte) : (bodyPortWrite c v d).Inv c := by
  obtain ⟨hbody, hrx, hhex⟩ := h.ovf_full
  rcases h.body_len.lt_or_eq with hroom | hfull
  · rw [bodyPortWrite_room v hroom]
    have hnotSet : d.bodyOvf = true → (d.body ++ [v]).length = c.bodyMax := fun hovf => absurd (hbody hovf) hroom.ne
    exact { h with body_len := List.length_append.trans_le hroom, ovf_full := ⟨hnotSet, hrx, hhex⟩ }
  · rw [bodyPortWrite_full v hfull.ge]
    exact { h with ovf_full := ⟨fun _ => hfull, hrx, hhex⟩ }

theorem inv_rxPortWrite (h : d.Inv c) (v : Byte) : (rxPortWrite c v d).Inv c := by
  obtain ⟨hbody, hrx, hhex⟩ := h.ovf_full
  rcases h.rx_len.lt_or_eq with hroom | hfull
  · rw [rxPortWrite_room v hroom]
    have hnotSet : d.rxOvf = true → (d.rx ++ [v]).length = c.rxMax := fun hovf => absurd (hrx hovf) hroom.ne
    exact { h with rx_len := List.length_append.trans_le hroom, ovf_full := ⟨hbody, hnotSet, hhex⟩ }
  · rw [rxPortWrite_full v hfull.ge]
    exact { h with ovf_full := ⟨hbody, fun _ => hfull, hhex⟩ }

theorem inv_hexPortWrite (h : d.Inv c) (v : Byte) : (hexPortWrite v d).Inv c := by
  obtain ⟨hbody, hrx, hhex⟩ := h.ovf_full
  rcases h.hexb_len.lt_or_eq with hroom | hfull
  · rw [hexPortWrite_room v hroom]
    have hnotSet : d.hexOvf = true → (d.hexb ++ [v]).length = 8 := fun hovf => absurd (hhex hovf) hroom.ne
    exact { h with hexb_len := List.length_append.trans_le hroom, ovf_full := ⟨hbody, hrx, hnotSet⟩ }
  · rw [hexPortWrite_full v hfull.ge]
    exact { h with ovf_full := ⟨hbody, hrx, fun _ => hfull⟩ }

/-- No location's write effect breaks the invariant. -/
theorem inv_writeLoc (h : d.Inv c) (l : Loc) (v : Byte) : (writeLoc c l v d).Inv c := by
  cases l with
  | tagIn => exact inv_tagPortWrite h v
  | bodyIn => exact inv_bodyPortWrite h v
  | rxIn => exact inv_rxPortWrite h v
  | hexIn => exact inv_hexPortWrite h v
  | flt i => exact { h with }
  | _ => exact h

/-! ### FDEC -/

/-- A header field of the stripped response is no sync byte (R116). -/
theorem byteAt_strip_ne_sync {r : List Byte} {i : Nat} (h : i < (strip r).length) : byteAt (strip r) i ≠ syncByte :=
  fun hsync => sync_notMem_strip r (hsync ▸ byteAt_mem h)

theorem inv_decodeShort (h : d.Inv c) : (decodeShort (strip d.rx) d).Inv c :=
  { h with
    slen_le := (strip_length_le d.rx).trans h.rx_len
    data_len := .inl rfl
    no_sync := (inv_reset c).no_sync }

/-- The header FDEC reads keeps the invariant, with DATA a part of the stripped response that is empty or as long as
the byte count. -/
theorem inv_decodeHeader (h : d.Inv c) (hlen : 8 ≤ (strip d.rx).length) {data : List Byte} (hdata : data ⊆ strip d.rx)
    (hcount : data = [] ∨ data.length = (byteAt (strip d.rx) 7).toNat) : (decodeHeader (strip d.rx) data d).Inv c := by
  have field {i : Nat} (hi : i < 8) : byteAt (strip d.rx) i ≠ syncByte := byteAt_strip_ne_sync (hi.trans_le hlen)
  have haddr : syncByte ∉ (decodeHeader (strip d.rx) data d).decAddr.toList := by
    simp only [decodeHeader, Vector.toList_mk, List.mem_cons, List.not_mem_nil, or_false, not_or]
    exact ⟨(field (by decide)).symm, (field (by decide)).symm, (field (by decide)).symm, (field (by decide)).symm,
      (field (by decide)).symm⟩
  exact { h with
    slen_le := (strip_length_le d.rx).trans h.rx_len
    data_len := hcount
    no_sync := ⟨field (by decide), field (by decide), field (by decide), haddr,
      fun hsync => sync_notMem_strip d.rx (hdata hsync)⟩ }

/-! ### Commands -/

/-- Any result code may be written over a state that meets the invariant (R160). -/
theorem inv_withRes (h : d.Inv c) (r : ResCode) : Sfc.Inv c { d with res := r.code } :=
  { h with res_code := ⟨r, rfl⟩ }

end

/-- Every command completes over an SFC's state that meets the invariant. It says nothing of PADDR, CSUM, FLT and HEXO,
so the commands that write those alone keep it as it is. -/
theorem exec_complete_inv {s : State} (h : s.sfc.Inv s.cfg) (i : Instr) :
    ∃ d r, exec i s = complete d r s ∧ d.Inv s.cfg := by
  obtain ⟨hbody, hrx, hhex⟩ := h.ovf_full
  cases i with
  | nop | badcmd _ => exact ⟨_, _, rfl, h⟩
  | pack =>
    by_cases hlen : s.sfc.tag.length = 8
    · exact ⟨_, _, exec_pack_of_length_eq hlen, { h with }⟩
    · exact ⟨_, _, exec_pack_of_length_ne hlen, h⟩
  | csum =>
    cases hovf : s.sfc.bodyOvf with
    | true => exact ⟨_, _, exec_csum_of_bodyOvf hovf, h⟩
    | false => exact ⟨_, _, exec_csum_of_not_bodyOvf hovf, { h with }⟩
  | fenc =>
    cases hovf : s.sfc.bodyOvf with
    | true => exact ⟨_, _, FrameCommands.exec_fenc_of_bodyOvf hovf, h⟩
    | false =>
      exact ⟨_, _, exec_fenc_of_not_bodyOvf hovf, { h with tx_frame := .inr ⟨s.sfc.body, h.body_len, rfl⟩ }⟩
  | fdec =>
    rcases execFdec_cases s with ⟨-, he⟩ | ⟨-, -, he⟩ | ⟨-, hlen, -, he⟩ | ⟨-, hfits, he⟩
    · exact ⟨_, _, he, h⟩
    · exact ⟨_, _, he, inv_decodeShort h⟩
    · exact ⟨_, _, he, inv_decodeHeader h hlen (List.nil_subset _) (.inl rfl)⟩
    · refine ⟨_, _, he, inv_decodeHeader h (by omega) (fun _ hb => ?_) (.inr ?_)⟩
      · exact List.mem_of_mem_drop (List.mem_of_mem_take hb)
      · rw [List.length_take, List.length_drop]
        omega
  | f2h => exact ⟨_, _, rfl, { h with }⟩
  | h2f =>
    rcases execH2f_cases s with ⟨-, he⟩ | ⟨-, -, he⟩ | ⟨-, -, _, -, he⟩
    · exact ⟨_, _, he, h⟩
    · exact ⟨_, _, he, h⟩
    · exact ⟨_, _, he, { h with }⟩
  | clrTag => exact ⟨_, _, rfl, { h with tag_len := Nat.zero_le _ }⟩
  | clrBody => exact ⟨_, _, rfl, { h with body_len := Nat.zero_le _, ovf_full := ⟨nofun, hrx, hhex⟩ }⟩
  | clrRx => exact ⟨_, _, rfl, { h with rx_len := Nat.zero_le _, ovf_full := ⟨hbody, nofun, hhex⟩ }⟩
  | clrHex => exact ⟨_, _, rfl, { h with hexb_len := Nat.zero_le _, ovf_full := ⟨hbody, hrx, nofun⟩ }⟩
  | srst => exact ⟨_, _, rfl, inv_reset _⟩

/-! ### Events -/

theorem inv_exec {i : Instr} {s t : State} (h : s.Inv) (he : exec i s = .next t) : t.Inv := by
  obtain ⟨d, r, hi, hd⟩ := exec_complete_inv h.2 i
  cases he.symm.trans hi
  exact ⟨h.1, inv_withRes hd r⟩

theorem inv_busWrite {a : Addr} {v : Byte} {s t : State} (h : s.Inv) (hw : busWrite a v s = .next t) : t.Inv := by
  by_cases ha : locate a = .cmd
  · obtain rfl := (locate_eq_cmd_iff a).1 ha
    exact inv_exec h hw
  · rw [busWrite_of_ne_cmd ha] at hw
    cases hw
    exact ⟨h.1, inv_writeLoc h.2 _ v⟩

/-- Settles O44: a read and an empty list leave the SFC as it is, and a bus write and a power-on reset keep the
invariant; the host's side of the bus plays no part in it. -/
theorem everyStepKeepsTheInvariant : Obligations.EveryStepKeepsTheInvariant := by
  intro s t h hstep
  rcases step_cases s with ⟨-, he⟩ | ⟨a, rest, -, he⟩ | ⟨a, v, rest, -, he⟩ | ⟨rest, -, he⟩
  · cases hstep.symm.trans he
    exact h
  · cases hstep.symm.trans he
    exact h
  · have hpending : (s.withPending rest).Inv := h
    exact inv_busWrite hpending (he.symm.trans hstep)
  · cases hstep.symm.trans he
    exact ⟨h.1, inv_reset s.cfg⟩

end Sys2Proof.Proofs.Invariant
end

/-! ## The register map as a bijection: the addresses R54 lists are the only unmapped ones (R51, R54) -/

section
namespace Sys2Proof.Proofs.RegisterBijection

open Sys2Proof Sys2Proof.Machine Sys2Proof.Proofs.RegisterMap

/-- A number that names no window lies between two of them or beyond the last. -/
theorem gap_of_locateWindow_eq_unmapped {n : Nat} (h : locateWindow n = .unmapped) :
    n < 0x0011 ∨ (0x0016 ≤ n ∧ n ≤ 0x001B) ∨ n = 0x0026 ∨ n = 0x0027 ∨ (0x0040 ≤ n ∧ n ≤ 0x00FF) ∨ 0x0900 ≤ n := by
  unfold locateWindow at h
  iterate 10
    split at h
    next => cases h
  omega

/-- An unmapped address is one of those R54 lists: the registers' own addresses fill the other gaps. -/
theorem listed_of_locate_eq_unmapped {a : Addr} (h : locate a = .unmapped) :
    a.toNat = 0x0003 ∨ a.toNat = 0x001B ∨ a.toNat = 0x0026 ∨ a.toNat = 0x0027 ∨
      (0x0040 ≤ a.toNat ∧ a.toNat ≤ 0x00FF) ∨ 0x0900 ≤ a.toNat := by
  unfold locate at h
  split at h
  case h_22 =>
    have hgap := gap_of_locateWindow_eq_unmapped h
    simp only [imp_false] at *
    omega
  all_goals cases h

/-- Settles O5: `addressOf` and `locate` undo each other on mapped locations, and R54's list is exact both ways. -/
theorem registerMapIsOneToOne : Obligations.RegisterMapIsOneToOne :=
  ⟨fun _ _ => locate_addressOf, fun a hmapped => (addressOf_locate a).resolve_left hmapped,
    fun _ => ⟨listed_of_locate_eq_unmapped, locate_eq_unmapped⟩⟩

end Sys2Proof.Proofs.RegisterBijection
end

/-! ## The host's FLT form: its four bytes put together are its word (R76, R131) -/

section
namespace Sys2Proof.Proofs.FltForm

open Sys2Proof Sys2Proof.Machine

/-- Writing byte `i` of `w` over the same byte of `x` makes `x` agree with `w` there. -/
theorem getLsbD_setFltByte_fltByte (x w : Word32) (i : Fin 4) (k : Nat) :
    (setFltByte x i (fltByte w i)).getLsbD k =
      if 24 - 8 * i.val ≤ k ∧ k < 24 - 8 * i.val + 8 then w.getLsbD k else x.getLsbD k := by
  rw [setFltByte, getLsbD_putField]
  split
  next hbyte =>
    have hbit : 24 - 8 * i.val + (k - (24 - 8 * i.val)) = k := by omega
    have hin : k - (24 - 8 * i.val) < 8 ∧ k < 32 := by omega
    rw [fltByte, BitVec.getLsbD_extractLsb', hbit]
    simp [hin]
  next => rfl

/-- A word's four bytes written into FLT leave nothing of what FLT held. -/
theorem setFltByte_all (x w : Word32) :
    setFltByte (setFltByte (setFltByte (setFltByte x 0 (fltByte w 0)) 1 (fltByte w 1)) 2 (fltByte w 2)) 3
      (fltByte w 3) = w := by
  apply BitVec.eq_of_getLsbD_eq
  intro k hk
  simp only [getLsbD_setFltByte_fltByte]
  split_ifs with h3 h2 h1 h0
  · rfl
  · rfl
  · rfl
  · rfl
  · omega

theorem runEvents_fltWrite_cons (i : Fin 4) (v : Byte) (evs : List HostEvent) (s : State) :
    runEvents (busWriteEvent (BitVec.ofNat 16 (0x001C + i.val)) v :: evs) s =
      runEvents evs ((s.withSfc { s.sfc with flt := setFltByte s.sfc.flt i v }).withPending evs) :=
  runEvents_cons (FltAccess.busWrite_flt i v (s.withPending evs)) rfl

/-- Settles O14: the four writes set FLT's bytes 0 to 3 in turn. -/
theorem fltFormLoadsTheWholeWord : Obligations.FltFormLoadsTheWholeWord := by
  intro s w
  have hexpand : (expand (.flt w)).map HostEvent.access =
      [busWriteEvent (BitVec.ofNat 16 (0x001C + (0 : Fin 4).val)) (fltByte w 0),
        busWriteEvent (BitVec.ofNat 16 (0x001C + (1 : Fin 4).val)) (fltByte w 1),
        busWriteEvent (BitVec.ofNat 16 (0x001C + (2 : Fin 4).val)) (fltByte w 2),
        busWriteEvent (BitVec.ofNat 16 (0x001C + (3 : Fin 4).val)) (fltByte w 3)] := rfl
  rw [hexpand, runEvents_fltWrite_cons, runEvents_fltWrite_cons, runEvents_fltWrite_cons, runEvents_fltWrite_cons,
    runEvents_nil]
  simp only [State.withPending_sfc, State.withSfc_sfc, setFltByte_all]
  rfl

end Sys2Proof.Proofs.FltForm
end

/-! ## What PACK keeps of a tag: the low six bits of each character (R91) -/

section
namespace Sys2Proof.Proofs.PackedTags

open Sys2Proof Sys2Proof.Machine Sys2Proof.Proofs.PackedStream Sys2Proof.Proofs.PackedAscii
  Sys2Proof.Proofs.BufferBytes

/-- PADDR's six bytes hold the whole stream. -/
theorem splitStream_injective {v w : BitVec 48} (h : splitStream v = splitStream w) : v = w := by
  have hbytes := congrArg Vector.toList h
  simp only [splitStream, Vector.toList_mk, List.cons.injEq, and_true] at hbytes
  obtain ⟨h0, h1, h2, h3, h4, h5⟩ := hbytes
  rw [← streamByte_append v, ← streamByte_append w, h0, h1, h2, h3, h4, h5]

/-- Two streams are equal exactly when their eight symbols are. -/
theorem packedStream_eq_iff (t u : List Byte) :
    packedStream t = packedStream u ↔ ∀ i < 8, symbol (byteAt t i) = symbol (byteAt u i) := by
  constructor
  · intro h i hi
    apply BitVec.eq_of_getLsbD_eq
    intro k hk
    have hbit := congrArg (BitVec.getLsbD · (6 * (7 - i) + k)) h
    have hindex : 7 - (6 * (7 - i) + k) / 6 = i := by omega
    have hmod : (6 * (7 - i) + k) % 6 = k := by omega
    rw [getLsbD_packedStream _ (by omega), getLsbD_packedStream _ (by omega), hindex, hmod] at hbit
    simpa [symbol, hk] using hbit
  · intro h
    apply BitVec.eq_of_getLsbD_eq
    intro k hk
    have hbit := congrArg (BitVec.getLsbD · (k % 6)) (h (7 - k / 6) (by omega))
    have hlow : k % 6 < 6 := Nat.mod_lt k (by decide)
    rw [getLsbD_packedStream _ hk, getLsbD_packedStream _ hk]
    simpa [symbol, hlow] using hbit

theorem symbol_eq_iff (b c : Byte) : symbol b = symbol c ↔ b.toNat % 64 = c.toNat % 64 := by
  rw [← BitVec.toNat_inj, toNat_symbol, toNat_symbol]
  omega

/-- Two lists of eight bytes have the same residues exactly when the bytes at each index have. -/
theorem map_mod_eq_iff {t u : List Byte} (ht : t.length = 8) (hu : u.length = 8) :
    t.map (fun c => c.toNat % 64) = u.map (fun c => c.toNat % 64) ↔
      ∀ i < 8, (byteAt t i).toNat % 64 = (byteAt u i).toNat % 64 := by
  constructor
  · intro h i hi
    have hat := congrArg (·[i]?) h
    simpa [byteAt_eq_getElem, ht, hu, hi] using hat
  · intro h
    apply List.ext_getElem (by simp [ht, hu])
    intro i hti hui
    have hi : i < 8 := by simpa [ht] using hti
    simpa [byteAt_eq_getElem, ht, hu, hi] using h i hi

/-- Settles O24: PADDR holds the stream, the stream the eight symbols, and a symbol its character modulo 64. -/
theorem tagsPackEquallyWhenSymbolsAgree : Obligations.TagsPackEquallyWhenSymbolsAgree := by
  intro t u ht hu
  calc packTag t = packTag u
      ↔ packedStream t = packedStream u := ⟨splitStream_injective, congrArg splitStream⟩
    _ ↔ ∀ i < 8, symbol (byteAt t i) = symbol (byteAt u i) := packedStream_eq_iff t u
    _ ↔ ∀ i < 8, (byteAt t i).toNat % 64 = (byteAt u i).toNat % 64 := by simp only [symbol_eq_iff]
    _ ↔ t.map (fun c => c.toNat % 64) = u.map (fun c => c.toNat % 64) := (map_mod_eq_iff ht hu).symm

end Sys2Proof.Proofs.PackedTags
end

/-! ## Frames as the host reads them, and responses as FDEC sees them (R33, R112 to R116) -/

section
namespace Sys2Proof.Proofs.FrameTransfer

open Sys2Proof Sys2Proof.Machine Sys2Proof.Proofs.LengthRegisters Sys2Proof.Proofs.Checksum
  Sys2Proof.Proofs.FrameCommands

/-! ### The TX window -/

/-- The TX window reads TX byte by byte (R53). -/
theorem busRead_txWin {i n : Nat} (hi : i < 512) (hn : n = 0x0200 + i) (d : Sfc) :
    busRead (BitVec.ofNat 16 n) d = byteAt d.tx i :=
  hn ▸ busRead_of_locate (locate_txWin ⟨i, hi⟩) d

theorem byteAt_frameOf_preamble (b : List Byte) {i : Nat} (hi : i < 4) : byteAt (frameOf b) i = 0xFF#8 := by
  apply byteAt_of_getElem?
  rw [frameOf_eq, List.getElem?_append_left (by simpa using hi), List.getElem?_replicate_of_lt hi]

/-- After the preamble a frame is its body, the checksum and the terminator (R112). -/
theorem byteAt_frameOf_four_add (b : List Byte) (i : Nat) :
    byteAt (frameOf b) (4 + i) = byteAt (b ++ [crc b, 0x00#8]) i := by
  rw [byteAt, byteAt, List.getD_eq_getElem?_getD, List.getD_eq_getElem?_getD, frameOf_eq,
    List.getElem?_append_right (by simp)]
  simp

/-- Settles O30: FENC leaves the body's frame in TX, and `BODY_MAX` keeps all of it in the window. -/
theorem transmitWindowShowsTheFrame : Obligations.TransmitWindowShowsTheFrame := by
  rintro s t ⟨⟨⟨-, hbodyMax⟩, -⟩, hinv⟩ hovf h
  have hbody := hinv.body_len
  cases h.symm.trans (exec_fenc_of_not_bodyOvf hovf)
  refine ⟨fun i hi => ?_, fun i b hb => ?_, ?_, rfl, ?_, ?_⟩
  · exact (busRead_txWin (by omega) rfl _).trans (byteAt_frameOf_preamble _ hi)
  · obtain ⟨hi, -⟩ := List.getElem?_eq_some_iff.1 hb
    rw [busRead_txWin (i := 4 + i) (by omega) (by omega)]
    refine (byteAt_frameOf_four_add _ i).trans (byteAt_of_getElem? ?_)
    rwa [List.getElem?_append_left hi]
  · rw [busRead_txWin (i := 4 + s.sfc.body.length) (by omega) (by omega)]
    exact (byteAt_frameOf_four_add _ _).trans (byteAt_of_getElem? (by simp))
  · rw [busRead_txWin (i := 4 + (s.sfc.body.length + 1)) (by omega) (by omega)]
    exact (byteAt_frameOf_four_add _ _).trans (byteAt_of_getElem? (by simp))
  · have hlen := frameOf_length s.sfc.body
    exact (toNat_lengthHigh_append_lengthLow (n := (frameOf s.sfc.body).length) (by omega)).trans hlen

/-! ### FDEC -/

/-- Settles O33: FDEC looks at RX through RX_OVF and the stripped response only, and in each outcome it keeps RX. -/
theorem fdecSeesOnlyNonSyncBytes : Obligations.FdecSeesOnlyNonSyncBytes := by
  intro s t r hr h
  simp only [exec, execFdec, hr] at h ⊢
  split_ifs at h ⊢ <;> cases h <;> rfl

/-- Settles O34: the failures past the overflow check empty DATA, and a success takes as many bytes as DEC_BCNT says,
which the response holds. -/
theorem dataLengthFollowsTheByteCount : Obligations.DataLengthFollowsTheByteCount := by
  intro s t hovf h
  rcases execFdec_cases s with ⟨hset, -⟩ | ⟨-, -, he⟩ | ⟨-, -, -, he⟩ | ⟨-, hfits, he⟩
  · rw [hovf] at hset; cases hset
  · cases h.symm.trans he
    exact ⟨fun hok => absurd (a := ResCode.decShort.code = 0x00#8) hok (by decide), fun _ => rfl⟩
  · cases h.symm.trans he
    exact ⟨fun hok => absurd (a := ResCode.decBounds.code = 0x00#8) hok (by decide), fun _ => rfl⟩
  · cases h.symm.trans he
    refine ⟨fun _ => ?_, fun hfail => absurd rfl hfail⟩
    have hlen : (strip s.sfc.rx).length - 8 ≥ (byteAt (strip s.sfc.rx) 7).toNat := by omega
    exact List.length_take_of_le (hlen.trans_eq List.length_drop.symm)

/-- Stripping a frame leaves its body, when that holds no sync byte, and what stripping leaves of the last two
bytes. -/
theorem strip_frameOf {b : List Byte} (h : syncByte ∉ b) : strip (frameOf b) = b ++ strip [crc b, 0x00#8] := by
  have hpreamble : strip (List.replicate 4 0xFF#8) = [] := rfl
  rw [frameOf_eq, strip_append, strip_append, hpreamble, strip_of_notMem h, List.nil_append]

/-- Settles O35: FDEC reads the header off the body's first eight bytes, and the byte count ends DATA where the body
ends. -/
theorem frameReceivedBackDecodesToItsBody : Obligations.FrameReceivedBackDecodesToItsBody := by
  intro s d a0 a1 a2 a3 a4 c n p body hsync hcount hrx hovf
  have hst : strip s.sfc.rx = d :: a0 :: a1 :: a2 :: a3 :: a4 :: c :: n :: (p ++ strip [crc body, 0x00#8]) := by
    rw [hrx, strip_frameOf hsync]
    rfl
  have hfits : ¬ (p ++ strip [crc body, 0x00#8]).length < n.toNat := by
    rw [List.length_append]
    omega
  have hdata : (p ++ strip [crc body, 0x00#8]).take n.toNat = p := List.take_left' hcount
  have hfdec := exec_fdec_of_header hovf hst
  rw [if_neg hfits, hdata, hst, decodeHeader_cons] at hfdec
  exact ⟨_, hfdec, rfl, rfl, rfl, rfl, rfl, rfl⟩

end Sys2Proof.Proofs.FrameTransfer
end

/-! ## What a step serves and what it may change (R20, R54, R62, R153, R165, R180) -/

section
namespace Sys2Proof.Proofs.StepEffects

open Sys2Proof Sys2Proof.Machine Sys2Proof.Proofs.RegisterMap Sys2Proof.Proofs.BusAccess Sys2Proof.Proofs.EventOrder

/-- Settles O45: a read appends its answer, and a bus write and a power-on reset change the SFC's part only. -/
theorem everyStepServesOneEventAndGoesOn : Obligations.EveryStepServesOneEventAndGoesOn := by
  intro s
  rcases step_cases s with ⟨hp, he⟩ | ⟨a, rest, hp, he⟩ | ⟨a, v, rest, hp, he⟩ | ⟨rest, hp, he⟩
  · exact ⟨_, he, rfl, by simp [hp], by simp [hp]⟩
  · exact ⟨_, he, rfl, by simp [hp], by simp [hp]⟩
  · obtain ⟨d, hd⟩ := busWrite_next a v (s.withPending rest)
    exact ⟨_, he.trans hd, rfl, by simp [hp], by simp [hp]⟩
  · exact ⟨_, he, rfl, by simp [hp], by simp [hp]⟩

/-- Settles O46: of what a step can do, only a bus write and a power-on reset touch the SFC. -/
theorem onlyHostWritesChangeTheSfc : Obligations.OnlyHostWritesChangeTheSfc := by
  refine ⟨fun s t h hne => ?_, fun s hp => ?_⟩
  · rcases step_cases s with ⟨-, he⟩ | ⟨a, rest, -, he⟩ | ⟨a, v, rest, hp, -⟩ | ⟨rest, hp, -⟩
    · cases h.symm.trans he
      exact absurd rfl hne
    · cases h.symm.trans he
      exact absurd rfl hne
    · exact .inl ⟨a, v, rest, hp⟩
    · exact .inr ⟨rest, hp⟩
  · rw [step, serveNext, hp]

/-- No port and no byte of FLT writes RES (R153). -/
theorem writeLoc_res (cfg : Config) (l : Loc) (v : Byte) (d : Sfc) : (writeLoc cfg l v d).res = d.res := by
  cases l with
  | bodyIn => rw [writeLoc, bodyPortWrite]; split <;> rfl
  | rxIn => rw [writeLoc, rxPortWrite]; split <;> rfl
  | hexIn => rw [writeLoc, hexPortWrite]; split <;> rfl
  | _ => rfl

/-- Settles O48: a step that changes the SFC serves a write or a power-on reset, and a write elsewhere than to CMD is
`writeLoc`. -/
theorem onlyCommandsChangeRes : Obligations.OnlyCommandsChangeRes := by
  intro s t h hne
  rcases onlyHostWritesChangeTheSfc.1 s t h (mt (congrArg Sfc.res) hne) with ⟨a, v, rest, hp⟩ | hpower
  · by_cases ha : a = 0x0000#16
    · subst ha
      exact .inl ⟨v, rest, hp⟩
    · rw [step_write hp, busWrite_of_ne_cmd (locate_ne rfl ha)] at h
      cases h
      exact absurd (writeLoc_res _ _ _ _) hne
  · exact .inr hpower

/-- Settles O56: the command does the same whatever the host has pending, and RES is read from the state it leaves. -/
theorem nextReadOfResGivesTheCommandsCode : Obligations.NextReadOfResGivesTheCommandsCode := by
  intro s op
  obtain ⟨d, hd⟩ := busWrite_withPending cmdAddr op s
  refine ⟨(s.withSfc d).withPending [], hd [], ?_⟩
  rw [runEvents_cons (e := cmdWrite op) (hd [busReadEvent 0x0001#16]) rfl, runEvents_read_cons, runEvents_nil]
  rfl

end Sys2Proof.Proofs.StepEffects
end

/-! ## The overflow flags: what sets one, what clears one, and where it is read (R37, R38) -/

section
namespace Sys2Proof.Proofs.OverflowFlags

open Sys2Proof Sys2Proof.Machine Sys2Proof.Proofs.RegisterMap Sys2Proof.Proofs.BusAccess Sys2Proof.Proofs.Checksum
  Sys2Proof.Proofs.FrameCommands Sys2Proof.Proofs.BoundedPorts Sys2Proof.Proofs.HexConverter
  Sys2Proof.Proofs.OverflowRuns Sys2Proof.Proofs.OverflowRuns.FlaggedBuffer

section
variable {b : FlaggedBuffer} {s t : State}

theorem flag_reset : b.flag Sfc.reset = false := by
  cases b <;> rfl

theorem flag_of_exec_clear (h : exec b.clearCommand s = .next t) : b.flag t.sfc = false := by
  cases b <;> cases h <;> rfl

/-- No command sets a flag (R37). -/
theorem flag_of_exec (i : Instr) (hclear : b.flag s.sfc = false) (h : exec i s = .next t) : b.flag t.sfc = false := by
  by_cases hclr : i = b.clearCommand
  · subst hclr
    exact flag_of_exec_clear h
  by_cases hsrst : i = .srst
  · subst hsrst
    cases h
    exact flag_reset
  exact (exec_of_ne_clear hclr hsrst h).1.trans hclear

/-- Only a buffer's own port, over a full buffer, sets its flag (R37). -/
theorem port_full_of_busWrite_sets_flag {a : Addr} {v : Byte} (h : busWrite a v s = .next t)
    (hclear : b.flag s.sfc = false) (hset : b.flag t.sfc = true) :
    locate a = b.port ∧ b.capacity s.cfg ≤ (b.bytes s.sfc).length := by
  by_cases ha : locate a = .cmd
  · obtain rfl := (locate_eq_cmd_iff a).1 ha
    exact absurd hset (Bool.eq_false_iff.1 (flag_of_exec (decodeOp v) hclear h))
  rw [busWrite_of_ne_cmd ha] at h
  cases h
  have hchanged : b.flag (writeLoc s.cfg (locate a) v s.sfc) ≠ b.flag s.sfc := by
    rw [hclear]
    exact fun hsame => absurd hset (Bool.eq_false_iff.1 hsame)
  by_cases hport : locate a = b.port
  · refine ⟨hport, Nat.le_of_not_lt fun hroom => hchanged ?_⟩
    rw [hport]
    exact writeLoc_port_room hroom v
  · exact absurd (writeLoc_of_ne_port hport s.cfg v s.sfc).1 hchanged

/-- A step that sets a flag serves a write to the buffer's port while the buffer is full. -/
theorem step_sets_flag {p : Addr} (hp : addressOf b.port = some p) (h : step s = .next t)
    (hclear : b.flag s.sfc = false) (hset : b.flag t.sfc = true) :
    b.capacity s.cfg ≤ (b.bytes s.sfc).length ∧ ∃ v rest, s.bus.pending = .access (.write p v) :: rest := by
  have hunset : b.flag s.sfc ≠ true := Bool.eq_false_iff.1 hclear
  rcases step_cases s with ⟨-, he⟩ | ⟨a, rest, -, he⟩ | ⟨a, v, rest, hpending, he⟩ | ⟨rest, -, he⟩
  · cases h.symm.trans he
    exact absurd hset hunset
  · cases h.symm.trans he
    exact absurd hset hunset
  · obtain ⟨hport, hfull⟩ := port_full_of_busWrite_sets_flag (he.symm.trans h) hclear hset
    obtain rfl : a = p := by
      by_contra hne
      exact locate_ne hp hne hport
    exact ⟨hfull, v, rest, hpending⟩
  · cases h.symm.trans he
    exact absurd hset (Bool.eq_false_iff.1 flag_reset)

/-- A step that clears a flag serves the buffer's clear command, SRST or a power-on reset. -/
theorem step_clears_flag (h : step s = .next t) (hset : b.flag s.sfc = true) (hclear : b.flag t.sfc = false) :
    ∃ e rest, s.bus.pending = e :: rest ∧ e ∈ b.clearingEvents := by
  rw [step, serveNext] at h
  split at h
  case h_1 =>
    cases h
    exact absurd hset (Bool.eq_false_iff.1 hclear)
  case h_2 e rest hpending =>
    rcases runEvent_keeps_flag (s := s.withPending rest) hset h with ⟨hclears, -⟩ | ⟨hkept, -⟩
    · exact ⟨e, rest, hpending, hclears⟩
    · exact absurd hkept (Bool.eq_false_iff.1 hclear)

end

/-- FLAGS holds the three flags in bits 0, 1, 2 and zeros above (R38). -/
theorem flagsByte_bits (d : Sfc) :
    (flagsByte d).getLsbD 0 = d.bodyOvf ∧ (flagsByte d).getLsbD 1 = d.rxOvf ∧ (flagsByte d).getLsbD 2 = d.hexOvf ∧
      (flagsByte d).extractLsb' 3 5 = 0#5 := by
  rw [flagsByte]
  cases d.bodyOvf <;> cases d.rxOvf <;> cases d.hexOvf <;> decide

/-- Settles O49: the ports and the clear commands by their cases, every step by the lemmas on a step that sets or clears
a flag, and a set flag is the first failure of the commands that read its buffer. -/
theorem overflowFlagsAreSetAndClearedOnlyAsListed : Obligations.OverflowFlagsAreSetAndClearedOnlyAsListed := by
  refine ⟨fun s v => ⟨fun hfull => ⟨_, busWrite_bodyIn v s, ?_⟩, fun hfull => ⟨_, busWrite_rxIn v s, ?_⟩,
      fun hfull => ⟨_, busWrite_hexIn v s, ?_⟩, ⟨_, rfl, rfl⟩, ⟨_, rfl, rfl⟩, ⟨_, rfl, rfl⟩, ⟨_, rfl, rfl, rfl, rfl⟩⟩,
    fun s t h => ⟨step_sets_flag (b := .body) rfl h, step_sets_flag (b := .rx) rfl h, step_sets_flag (b := .hexb) rfl h,
      step_clears_flag (b := .body) h, step_clears_flag (b := .rx) h, step_clears_flag (b := .hexb) h⟩,
    flagsByte_bits, ?_⟩
  · rw [bodyPortWrite_full v hfull]; rfl
  · rw [rxPortWrite_full v hfull]; rfl
  · rw [hexPortWrite_full v hfull]; rfl
  · rintro i s (⟨rfl | rfl, hovf⟩ | ⟨rfl, hovf⟩ | ⟨rfl, hovf⟩)
    · exact ⟨_, exec_csum_of_bodyOvf hovf, nofun⟩
    · exact ⟨_, exec_fenc_of_bodyOvf hovf, nofun⟩
    · exact ⟨_, exec_fdec_of_rxOvf hovf, nofun⟩
    · exact ⟨_, exec_h2f_of_hexOvf hovf, nofun⟩

end Sys2Proof.Proofs.OverflowFlags
end

/-! ## What a command writes, as the state and as the bus see it (R71's column "state written", R192) -/

section
namespace Sys2Proof.Proofs.CommandFrames

open Sys2Proof Sys2Proof.Machine Sys2Proof.Proofs.RegisterMap Sys2Proof.Proofs.FrameCommands
  Sys2Proof.Proofs.OverflowRuns

/-- From `d` to `e` only what R71 lists as the state the command writes may differ, RES with it. -/
def CommandFrame (i : Instr) (d e : Sfc) : Prop :=
  match i with
  | .nop | .badcmd _ => e = { d with res := e.res }
  | .pack => e = { d with paddr := e.paddr, res := e.res }
  | .csum => e = { d with csum := e.csum, res := e.res }
  | .fenc => e = { d with csum := e.csum, tx := e.tx, res := e.res }
  | .fdec =>
    e = { d with
      slen := e.slen, decDelim := e.decDelim, decAddr := e.decAddr, decCmd := e.decCmd, decBcnt := e.decBcnt
      data := e.data, res := e.res }
  | .f2h => e = { d with hexo := e.hexo, res := e.res }
  | .h2f => e = { d with flt := e.flt, res := e.res }
  | .clrTag => e = { d with tag := e.tag, res := e.res }
  | .clrBody => e = { d with body := e.body, bodyOvf := e.bodyOvf, res := e.res }
  | .clrRx => e = { d with rx := e.rx, rxOvf := e.rxOvf, res := e.res }
  | .clrHex => e = { d with hexb := e.hexb, hexOvf := e.hexOvf, res := e.res }
  | .srst => True

/-- A command writes what R71 lists for it and nothing else. -/
theorem exec_commandFrame {i : Instr} {s t : State} (h : exec i s = .next t) : CommandFrame i s.sfc t.sfc := by
  cases i with
  | srst => trivial
  | pack => simp only [exec, execPack] at h; split at h <;> cases h <;> rfl
  | csum => simp only [exec, execCsum] at h; split at h <;> cases h <;> rfl
  | fenc => simp only [exec, execFenc] at h; split at h <;> cases h <;> rfl
  | fdec => obtain ⟨_, _, _, _, _, _, _, rfl⟩ := exec_fdec_frame h; rfl
  | h2f =>
    rcases execH2f_cases s with ⟨-, he⟩ | ⟨-, -, he⟩ | ⟨-, -, _, -, he⟩ <;> cases h.symm.trans he <;> rfl
  | nop | f2h | clrTag | clrBody | clrRx | clrHex | badcmd _ => cases h; rfl

/-! ### Inputs -/

/-- Only CLR_TAG and SRST change TAG. -/
theorem tag_of_commandFrame {i : Instr} {d e : Sfc} (h : CommandFrame i d e) (hclr : i ≠ .clrTag)
    (hsrst : i ≠ .srst) : e.tag = d.tag := by
  cases i with
  | clrTag => exact absurd rfl hclr
  | srst => exact absurd rfl hsrst
  | _ => rw [h]

/-- A command that changes TAG empties it, and is its clear command or SRST. -/
theorem tag_cleared_of_ne {i : Instr} {s t : State} (h : exec i s = .next t) (hne : t.sfc.tag ≠ s.sfc.tag) :
    (i = .clrTag ∨ i = .srst) ∧ t.sfc.tag = [] := by
  by_cases hclr : i = .clrTag
  · subst hclr; cases h; exact ⟨.inl rfl, rfl⟩
  by_cases hsrst : i = .srst
  · subst hsrst; cases h; exact ⟨.inr rfl, rfl⟩
  exact absurd (tag_of_commandFrame (exec_commandFrame h) hclr hsrst) hne

/-- The same of a buffer with an overflow flag. -/
theorem bytes_cleared_of_ne {b : FlaggedBuffer} {i : Instr} {s t : State} (h : exec i s = .next t)
    (hne : b.bytes t.sfc ≠ b.bytes s.sfc) : (i = b.clearCommand ∨ i = .srst) ∧ b.bytes t.sfc = [] := by
  by_cases hclr : i = b.clearCommand
  · subst hclr; exact ⟨.inl rfl, bytes_of_exec_clear h⟩
  by_cases hsrst : i = .srst
  · subst hsrst; cases h; exact ⟨.inr rfl, bytes_reset⟩
  exact absurd (exec_of_ne_clear hclr hsrst h).2 hne

/-- Settles O52: TAG, and each of the three buffers with a flag, is changed by its clear command and SRST alone. -/
theorem commandsDoNotConsumeTheirInputs : Obligations.CommandsDoNotConsumeTheirInputs := fun _ _ _ h =>
  ⟨tag_cleared_of_ne h, bytes_cleared_of_ne (b := .body) h, bytes_cleared_of_ne (b := .rx) h,
    bytes_cleared_of_ne (b := .hexb) h⟩

/-! ### Addresses -/

/-- The address of an indexed location lies in its window. -/
theorem window_of_indexed {k : Nat} (base : Nat) (i : Fin k) {a : Addr} (hbase : base + k ≤ 65536)
    (h : some (BitVec.ofNat 16 (base + i.val)) = some a) : base ≤ a.toNat ∧ a.toNat ≤ base + (k - 1) := by
  rw [← Option.some.inj h, toNat_indexed base i hbase]
  omega

/-- Settles O53: what `CommandFrame` leaves open is read at the addresses the statement leaves out, by the register
map. -/
theorem commandsLeaveOtherAddressesAsTheyWere : Obligations.CommandsLeaveOtherAddressesAsTheyWere := by
  intro i s t a h hres hother
  have hframe := exec_commandFrame h
  rcases addressOf_locate a with hunmapped | haddr
  · rw [busRead_of_locate hunmapped, busRead_of_locate hunmapped]
    rfl
  have hat {b : Addr} (hb : some b = some a) : a = b := (Option.some.inj hb).symm
  rw [busRead, busRead]
  generalize locate a = l at haddr
  cases i with
  | nop | badcmd _ =>
    rw [hframe]
    cases l with
    | res => exact absurd (hat haddr) hres
    | _ => rfl
  | pack =>
    rw [hframe]
    cases l with
    | res => exact absurd (hat haddr) hres
    | paddr j => exact absurd (window_of_indexed 0x0020 j (by decide) haddr) hother
    | _ => rfl
  | csum =>
    rw [hframe]
    cases l with
    | res => exact absurd (hat haddr) hres
    | csum => exact absurd (hat haddr) hother
    | _ => rfl
  | fenc =>
    obtain ⟨hcsum, hlenL, hlenH, hwin⟩ := hother
    rw [hframe]
    cases l with
    | res => exact absurd (hat haddr) hres
    | csum => exact absurd (hat haddr) hcsum
    | txLenL => exact absurd (hat haddr) hlenL
    | txLenH => exact absurd (hat haddr) hlenH
    | txWin j => exact absurd (window_of_indexed 0x0200 j (by decide) haddr) hwin
    | _ => rfl
  | fdec =>
    obtain ⟨hregs, hwin⟩ := hother
    rw [hframe]
    cases l with
    | res => exact absurd (hat haddr) hres
    | decAddr j => have := window_of_indexed 0x0011 j (by decide) haddr; omega
    | decDelim | decCmd | decBcnt | dataLen | slenL | slenH => cases haddr; exact absurd (by decide) hregs
    | dataWin j => exact absurd (window_of_indexed 0x0800 j (by decide) haddr) hwin
    | _ => rfl
  | f2h =>
    rw [hframe]
    cases l with
    | res => exact absurd (hat haddr) hres
    | hexo j => exact absurd (window_of_indexed 0x0038 j (by decide) haddr) hother
    | _ => rfl
  | h2f =>
    rw [hframe]
    cases l with
    | res => exact absurd (hat haddr) hres
    | flt j => exact absurd (window_of_indexed 0x001C j (by decide) haddr) hother
    | _ => rfl
  | clrTag =>
    obtain ⟨hlen, hwin⟩ := hother
    rw [hframe]
    cases l with
    | res => exact absurd (hat haddr) hres
    | tagCnt => exact absurd (hat haddr) hlen
    | tag j => exact absurd (window_of_indexed 0x0028 j (by decide) haddr) hwin
    | _ => rfl
  | clrBody =>
    obtain ⟨hflags, hlen, hwin⟩ := hother
    rw [hframe]
    cases l with
    | res => exact absurd (hat haddr) hres
    | flags => exact absurd (hat haddr) hflags
    | bodyLen => exact absurd (hat haddr) hlen
    | bodyWin j => exact absurd (window_of_indexed 0x0100 j (by decide) haddr) hwin
    | _ => rfl
  | clrRx =>
    obtain ⟨hflags, hlenL, hlenH, hwin⟩ := hother
    rw [hframe]
    cases l with
    | res => exact absurd (hat haddr) hres
    | flags => exact absurd (hat haddr) hflags
    | rxLenL => exact absurd (hat haddr) hlenL
    | rxLenH => exact absurd (hat haddr) hlenH
    | rxWin j => exact absurd (window_of_indexed 0x0400 j (by decide) haddr) hwin
    | _ => rfl
  | clrHex =>
    obtain ⟨hflags, hlen, hwin⟩ := hother
    rw [hframe]
    cases l with
    | res => exact absurd (hat haddr) hres
    | flags => exact absurd (hat haddr) hflags
    | hexLen => exact absurd (hat haddr) hlen
    | hexb j => exact absurd (window_of_indexed 0x0030 j (by decide) haddr) hwin
    | _ => rfl
  | srst => exact hother.elim

end Sys2Proof.Proofs.CommandFrames
end

/-! ## Runs of events: what the windows show of the bytes written, and a parameter no run shows (R57, R63) -/

section
namespace Sys2Proof.Proofs.RunEffects

open Sys2Proof Sys2Proof.Machine Sys2Proof.Proofs.LengthRegisters Sys2Proof.Proofs.PackedAscii
  Sys2Proof.Proofs.Checksum Sys2Proof.Proofs.FrameCommands Sys2Proof.Proofs.BoundedPorts Sys2Proof.Proofs.HexConverter
  Sys2Proof.Proofs.ResultCodes Sys2Proof.Proofs.EventOrder

/-! ### The BODY and RX windows -/

/-- After CLR_BODY a list that fits is BODY. -/
theorem runEvents_clrBody_bodyWrites {s : State} {l : List Byte} (h : l.length ≤ s.cfg.bodyMax) :
    runEvents (cmdWrite 0x09#8 :: l.map (busWriteEvent bodyInAddr)) s =
      .next ((s.withSfc { s.sfc with body := l, bodyOvf := false, res := 0x00#8 }).withPending []) := by
  have hnone : ¬ s.cfg.bodyMax < l.length := Nat.not_lt.mpr h
  rw [runEvents_cons (e := cmdWrite 0x09#8) (succeed_eq _ _) rfl, runEvents_bodyWrites,
    foldl_bodyPortWrite (Nat.zero_le _)]
  simp [State.withSfc, State.withPending, List.take_of_length_le h, hnone]

/-- After CLR_RX a list that fits is RX. -/
theorem runEvents_clrRx_rxWrites {s : State} {l : List Byte} (h : l.length ≤ s.cfg.rxMax) :
    runEvents (cmdWrite 0x0A#8 :: l.map (busWriteEvent rxInAddr)) s =
      .next ((s.withSfc { s.sfc with rx := l, rxOvf := false, res := 0x00#8 }).withPending []) := by
  have hnone : ¬ s.cfg.rxMax < l.length := Nat.not_lt.mpr h
  rw [runEvents_cons (e := cmdWrite 0x0A#8) (succeed_eq _ _) rfl, runEvents_rxWrites,
    foldl_rxPortWrite (Nat.zero_le _)]
  simp [State.withSfc, State.withPending, List.take_of_length_le h, hnone]

theorem busRead_bodyWin {i : Nat} (hi : i < 256) (d : Sfc) :
    busRead (BitVec.ofNat 16 (0x0100 + i)) d = byteAt d.body i :=
  busRead_of_locate (locate_bodyWin ⟨i, hi⟩) d

theorem busRead_rxWin {i : Nat} (hi : i < 1024) (d : Sfc) :
    busRead (BitVec.ofNat 16 (0x0400 + i)) d = byteAt d.rx i :=
  busRead_of_locate (locate_rxWin ⟨i, hi⟩) d

/-- Settles O54: the list written is the buffer, and a legal bound keeps it within the length registers and the
window. -/
theorem windowsShowTheBytesInWireOrder : Obligations.WindowsShowTheBytesInWireOrder := by
  constructor
  · rintro s l ⟨⟨-, hmax⟩, -⟩ hl
    refine ⟨_, runEvents_clrBody_bodyWrites hl, toNat_lengthLow (n := l.length) (by omega), fun i b hb => ?_⟩
    obtain ⟨hi, -⟩ := List.getElem?_eq_some_iff.1 hb
    exact (busRead_bodyWin (by omega) _).trans (byteAt_of_getElem? hb)
  · rintro s l ⟨-, -, hmax⟩ hl
    refine ⟨_, runEvents_clrRx_rxWrites hl, toNat_lengthHigh_append_lengthLow (n := l.length) (by omega),
      fun i b hb => ?_⟩
    obtain ⟨hi, -⟩ := List.getElem?_eq_some_iff.1 hb
    exact (busRead_rxWin (by omega) _).trans (byteAt_of_getElem? hb)

/-! ### CMD_LATENCY -/

/-- The state with another CMD_LATENCY. -/
def withLatency (n : Nat) (s : State) : State :=
  { s with cfg := { s.cfg with cmdLatency := n } }

/-- A command completes over the same SFC's state with the same code under any latency. -/
theorem exec_withLatency (n : Nat) (i : Instr) (s : State) :
    ∃ d r, exec i s = complete d r s ∧ exec i (withLatency n s) = complete d r (withLatency n s) := by
  cases i with
  | pack =>
    by_cases hlen : s.sfc.tag.length = 8
    · exact ⟨_, _, exec_pack_of_length_eq hlen, exec_pack_of_length_eq (s := withLatency n s) hlen⟩
    · exact ⟨_, _, exec_pack_of_length_ne hlen, exec_pack_of_length_ne (s := withLatency n s) hlen⟩
  | csum =>
    cases hovf : s.sfc.bodyOvf with
    | true => exact ⟨_, _, exec_csum_of_bodyOvf hovf, exec_csum_of_bodyOvf (s := withLatency n s) hovf⟩
    | false => exact ⟨_, _, exec_csum_of_not_bodyOvf hovf, exec_csum_of_not_bodyOvf (s := withLatency n s) hovf⟩
  | fenc =>
    cases hovf : s.sfc.bodyOvf with
    | true => exact ⟨_, _, exec_fenc_of_bodyOvf hovf, exec_fenc_of_bodyOvf (s := withLatency n s) hovf⟩
    | false => exact ⟨_, _, exec_fenc_of_not_bodyOvf hovf, exec_fenc_of_not_bodyOvf (s := withLatency n s) hovf⟩
  | fdec =>
    cases hovf : s.sfc.rxOvf with
    | true => exact ⟨_, _, exec_fdec_of_rxOvf hovf, exec_fdec_of_rxOvf (s := withLatency n s) hovf⟩
    | false =>
      rcases Nat.lt_or_ge (strip s.sfc.rx).length 8 with hlen | hlen
      · exact ⟨_, _, exec_fdec_of_short hovf hlen, exec_fdec_of_short (s := withLatency n s) hovf hlen⟩
      · obtain ⟨d, a0, a1, a2, a3, a4, c, count, rest, hst⟩ := exists_header_of_eight_le hlen
        rw [exec_fdec_of_header hovf hst, exec_fdec_of_header (s := withLatency n s) hovf hst]
        split
        · exact ⟨_, _, rfl, rfl⟩
        · exact ⟨_, _, rfl, rfl⟩
  | h2f =>
    rcases execH2f_cases s with ⟨hovf, he⟩ | ⟨hovf, hbad, he⟩ | ⟨hovf, -, w, hw, he⟩
    · exact ⟨_, _, he, exec_h2f_of_hexOvf (s := withLatency n s) hovf⟩
    · exact ⟨_, _, he, exec_h2f_of_bad (s := withLatency n s) hovf hbad⟩
    · exact ⟨_, _, he, exec_h2f_of_hexWord (s := withLatency n s) hovf hw⟩
  | nop | f2h | clrTag | clrBody | clrRx | clrHex | srst | badcmd _ => exact ⟨_, _, rfl, rfl⟩

/-- One event does the same under any latency, its answer included. -/
theorem runEvent_withLatency (n : Nat) {e : HostEvent} {s t : State} (h : runEvent e s = .next t) :
    runEvent e (withLatency n s) = .next (withLatency n t) := by
  rcases e with (a | ⟨a, v⟩) | _
  · cases h; rfl
  · change busWrite a v s = .next t at h
    change busWrite a v (withLatency n s) = .next (withLatency n t)
    by_cases ha : locate a = .cmd
    · obtain rfl := (locate_eq_cmd_iff a).1 ha
      obtain ⟨d, r, hs, hn⟩ := exec_withLatency n (decodeOp v) s
      cases h.symm.trans hs
      exact hn
    · rw [busWrite_of_ne_cmd ha] at h ⊢
      cases h
      rfl
  · cases h; rfl

/-- Settles O55: by induction on the run, event by event. -/
theorem latencyIsUnobservable : Obligations.LatencyIsUnobservable := by
  intro s t evs n h
  change runEvents evs (withLatency n s) = .next (withLatency n t)
  induction evs generalizing s with
  | nil => cases h; rfl
  | cons e evs ih =>
    obtain ⟨u, -, hu⟩ := runEvent_withPending e s
    rw [runEvents_cons (hu evs) rfl] at h
    have hn : runEvent e ((withLatency n s).withPending evs) = .next (withLatency n (u.withPending evs)) :=
      runEvent_withLatency n (hu evs)
    rw [runEvents_cons hn rfl]
    exact ih _ h

end Sys2Proof.Proofs.RunEffects
end
